-- ==== Sys2Proof/Word.lean ====
section
/-! DEFINITION. The word types of HOTP-CORE (00_scope R5, R6): every integer is unsigned. -/

namespace Sys2Proof

/-- A byte: 8 bits (00_scope R6). -/
abbrev Byte := BitVec 8

/-- A word: 32 bits, bit 31 the most significant (00_scope R5). -/
abbrev Word := BitVec 32

/-- A 64-bit unsigned value: COUNTER and NOW (00_scope R4, COUNTER_BITS and NOW_BITS). -/
abbrev DWord := BitVec 64

/-- The slot index the host port carries: 6 bits, slot `k` at byte offset `4 * k` (20_memory R60, R64, R75). -/
abbrev Slot := BitVec 6

end Sys2Proof
end

