-- ==== Sys2Proof/Syntax.lean ====
section
/-! DEFINITION. The six commands (30_encoding R91), the names of the register map (20_memory R61), and the lines of a
host script (30_encoding R95). -/

namespace Sys2Proof

/-- The block's instructions: the six commands, one constructor per row of spec/opcode_table.json. None has an
operand field (30_encoding R92). -/
inductive Instr where
  /-- 0x00000001: validate the hex string and decode it to the key (40_keycodec R112). -/
  | keydec
  /-- 0x00000002: HMAC-SHA1 of the counter under the key (41_hmac_sha1 R141). -/
  | hmac
  /-- 0x00000003: dynamic truncation, modulo, six digits (42_truncation R164). -/
  | trunc
  /-- 0x00000004: HMAC followed by TRUNC (43_hotp_totp R180). -/
  | hotp
  /-- 0x00000005: COUNTER from NOW, then HOTP (43_hotp_totp R182). -/
  | totp
  /-- 0x00000006: clear every data register (44_system R200). -/
  | zeroize
deriving DecidableEq, Repr

/-- What a slot of the register space is (20_memory R61). -/
inductive Reg where
  | cmd
  | status
  | hexlen
  | keylen
  | counterHi
  | counterLo
  | nowHi
  | nowLo
  /-- KEYHEX0 to KEYHEX15. -/
  | keyhex (i : Fin 16)
  /-- KEY0 to KEY7. -/
  | key (i : Fin 8)
  /-- DIGEST0 to DIGEST4. -/
  | digest (i : Fin 5)
  | offset
  | binary
  | code
  | digits0
  | digits1
  /-- The reserved slots 42 to 63 (offsets 0xA8 to 0xFC). -/
  | reserved (i : Fin 22)
deriving DecidableEq, Repr

/-- What a host's IF line tests (30_encoding R95: "host-side branching on values the host has read"): the bits
`mask` of the word it read last equal `value`. DESIGN CHOICE (log 6), safe: the spec leaves the form of a condition
to the host. -/
structure Cond where
  mask : Word
  value : Word
deriving DecidableEq, Repr

/-- A host script (30_encoding R95), its pseudo-instructions expanded: what the host still has to do. A slot is
named by its index, as the port carries it. -/
inductive Script where
  /-- No line is left. -/
  | done
  /-- `WR reg, value`: one `HostWrite`, then the rest. -/
  | wr (slot : Slot) (value : Word) (rest : Script)
  /-- `RD reg`: one `HostRead`, then the rest. -/
  | rd (slot : Slot) (rest : Script)
  /-- `WAIT`: `RD STATUS` until the value read has BUSY = 0, then the rest. -/
  | wait (rest : Script)
  /-- `IF cond THEN thenS ELSE elseS END`, then the rest. -/
  | ifThen (cond : Cond) (thenS elseS rest : Script)
deriving DecidableEq, Repr

/-- The script that runs `s` and then `t`. -/
def Script.append : Script → Script → Script
  | .done, t => t
  | .wr k v rest, t => .wr k v (rest.append t)
  | .rd k rest, t => .rd k (rest.append t)
  | .wait rest, t => .wait (rest.append t)
  | .ifThen c a b rest, t => .ifThen c a b (rest.append t)

end Sys2Proof
end

