-- ==== Sys2Proof/WellFormed.lean ====
section
/-! DEFINITION. What a well-formed command word is (30_encoding R90, R91, R93). An `Instr` has no operand field
(R92), so every `Instr` is well formed; the checks are on the word that selects it. -/

namespace Sys2Proof

/-- RSV, bits 31:8, is zero (30_encoding R90). -/
def reservedClear (w : Word) : Bool := w.toNat / 256 == 0

/-- OPC, bits 7:0, is one of the six listed opcodes (30_encoding R91). -/
def opcodeListed (w : Word) : Bool := decide (1 ≤ w.toNat % 256 ∧ w.toNat % 256 ≤ 6)

/-- A word that selects a command; every other word is illegal (30_encoding R93). -/
def wordWellFormed (w : Word) : Bool := reservedClear w && opcodeListed w

/-- Every instruction is well formed: no command has an operand that could be out of range (30_encoding R92). -/
def Instr.wellFormed : Instr → Bool
  | .keydec => true
  | .hmac => true
  | .trunc => true
  | .hotp => true
  | .totp => true
  | .zeroize => true

end Sys2Proof
end

