-- ==== Sys2Proof/Decode.lean ====
section
/-! DEFINITION. Decoding a command word, total on words and rejecting by name (30_encoding R90, R91, R93, R96), and
the encoder written from the same table. -/

namespace Sys2Proof

/-- Why a word selects no command. Both kinds complete with IllegalCommand (30_encoding R93, 60_exceptions R214). -/
inductive Illegal where
  /-- RSV, bits 31:8, is not zero. -/
  | reservedNotZero
  /-- RSV is zero and OPC is 0x00 or 0x07 to 0xFF. -/
  | opcodeNotListed
deriving DecidableEq, Repr

/-- RSV, bits 31:8 of a command word (30_encoding R90). -/
def wordRsv (w : Word) : BitVec 24 := (w >>> 8).setWidth 24

/-- OPC, bits 7:0 of a command word (30_encoding R90). -/
def wordOpc (w : Word) : Byte := w.setWidth 8

/-- The command an opcode selects when RSV is zero (30_encoding R91). -/
def decodeOpc (opc : Byte) : Except Illegal Instr :=
  if opc = 0x01 then .ok .keydec
  else if opc = 0x02 then .ok .hmac
  else if opc = 0x03 then .ok .trunc
  else if opc = 0x04 then .ok .hotp
  else if opc = 0x05 then .ok .totp
  else if opc = 0x06 then .ok .zeroize
  else .error .opcodeNotListed

/-- `Decode(cw)` (30_encoding R96). -/
def decode (w : Word) : Except Illegal Instr :=
  if wordRsv w ≠ 0 then .error .reservedNotZero else decodeOpc (wordOpc w)

/-- The opcode of a command (30_encoding R91). -/
def opcode : Instr → Byte
  | .keydec => 0x01
  | .hmac => 0x02
  | .trunc => 0x03
  | .hotp => 0x04
  | .totp => 0x05
  | .zeroize => 0x06

/-- The word that selects a command: RSV zero above its opcode (30_encoding R90, R91). -/
def encode (i : Instr) : Word := (opcode i).setWidth 32

/-- The instruction read from `nbits` bits `w`, numbered as spec/opcode_table.json numbers them. A command is ONE
32-bit word that the port carries whole, so there are no bytes to lay out; a value that does not fit that word is
no command word. -/
def decodeTableWord (nbits w : Nat) : Option Instr :=
  if w % 2 ^ nbits < 2 ^ 32 then (decode (BitVec.ofNat 32 (w % 2 ^ nbits))).toOption else none

end Sys2Proof
end

