-- ==== Sys2Proof/Config.lean ====
section
/-! DEFINITION. The constants of the block (00_scope R4): each fixed, none programmable at run time. The two open
parameters of R4 have no constant here: LATENCY is the order of turns that State holds (log 2), BUS_PROTOCOL is not
represented (log 9). No rule of the spec leaves a value open, so there is no free value. -/

namespace Sys2Proof.Config

/-- HEX_CHARS: the length of a candidate key string, as the word HEXLEN is compared with. -/
abbrev hexChars : Word := 64

/-- KEY_BYTES: the length of a key, as the word KEYLEN is compared with. -/
abbrev keyBytes : Word := 32

/-- OFFSET_MASK. -/
abbrev offsetMask : Byte := 0x0F

/-- SIGN_MASK. -/
abbrev signMask : Byte := 0x7F

/-- MODULUS = 10^DIGITS. -/
abbrev modulus : Nat := 1000000

/-- TIME_STEP. -/
abbrev timeStep : DWord := 30

/-- SHA1_BLOCK_BYTES. -/
abbrev sha1BlockBytes : Nat := 64

/-- IPAD. -/
abbrev ipad : Byte := 0x36

/-- OPAD. -/
abbrev opad : Byte := 0x5C

end Sys2Proof.Config
end

