-- ==== Sys2Proof/Machine/State.lean ====
section
/-! DEFINITION. The state of HOTP-CORE (10_state R20) with the agents around it (00_scope R9), its reset values
(10_state R41), and the reasons a step can stop. -/

namespace Sys2Proof.Machine

/-- The reasons for the machine to stop with a fault: none. Every command is total, every error is a code in
STATUS.ERR, and nothing traps, halts or hangs (60_exceptions R210, R230; 93: nothing is treated as `stuck`). Safe:
the spec gives every transition a next state. DEDUCED (log 10). -/
inductive Fault where
deriving DecidableEq, Repr

/-- The reasons for an instruction to have no meaning. -/
inductive Refusal where
  /-- Raised by `exec` for an instruction whose meaning is not written; safe (nothing is claimed about it). No arm
  raises it: all six commands have their meaning. -/
  | notModelled (mnemonic : String)
deriving DecidableEq, Repr

/-- The fields of STATUS (10_state R33); its reserved bits are no state, they read 0. -/
structure Status where
  /-- BUSY: the engine holds a command that has not completed (R34). -/
  busy : Bool
  /-- DONE: the most recently accepted command has completed (R35). -/
  done : Bool
  /-- HZD: sticky, the host wrote while BUSY was 1 (R37). -/
  hzd : Bool
  /-- ERR: error code of the most recently completed command (R36). -/
  err : BitVec 4
deriving DecidableEq, Repr

/-- Five words: a SHA-1 chaining value, or the five round variables (41_hmac_sha1 R131, R134). -/
structure Words5 where
  a : Word
  b : Word
  c : Word
  d : Word
  e : Word
deriving DecidableEq, Repr

/-- The hidden working variables of the HMAC computation (10_state R39 (b)). Nothing reads them; DEDUCED, safe
(log 8). -/
structure Work where
  /-- The padded key block K0. -/
  k0 : Vector Byte 64
  /-- The two pad blocks. -/
  iblk : Vector Byte 64
  oblk : Vector Byte 64
  /-- The message schedule W[0..79]. -/
  sched : Vector Word 80
  /-- The five chaining words. -/
  chain : Words5
  /-- The five round variables. -/
  vars : Words5
  /-- The 20-byte inner digest. -/
  inner : Vector Byte 20
deriving DecidableEq, Repr

/-- The whole architectural state of the block, and nothing else (10_state R20). -/
structure Block where
  /-- STATUS (R33). -/
  status : Status
  /-- HEXLEN (R22). -/
  hexlen : Word
  /-- KEYLEN (R24). -/
  keylen : Word
  /-- COUNTER (R25). -/
  counter : DWord
  /-- NOW (R26). -/
  now : DWord
  /-- KEYHEX (R21). -/
  keyhex : Vector Byte 64
  /-- KEY (R23). -/
  key : Vector Byte 32
  /-- DIGEST (R27). -/
  digest : Vector Byte 20
  /-- OFFSET (R28). -/
  offset : BitVec 4
  /-- BINARY (R29). -/
  binary : BitVec 31
  /-- CODE (R30). -/
  code : BitVec 20
  /-- DIGITS (R31). -/
  digits : Vector Byte 6
  /-- CW, the held command word (R39 (a)). -/
  cw : Word
  /-- The SHA-1 working variables (R39 (b)). -/
  work : Work
deriving DecidableEq, Repr

/-- The agents whose moves make up a run (00_scope R9). -/
inductive Agent where
  /-- The host: its move is the next line of its script. -/
  | host
  /-- The engine: its move is `Complete`, when a command is held. -/
  | engine
  /-- The environment: its move is `Reset`. -/
  | environment
deriving DecidableEq, Repr

/-- The host's side of the port. It is no state of the block (10_state R32, R43); DESIGN CHOICE (log 1, log 4). -/
structure HostSide where
  /-- The lines the host has still to perform (30_encoding R95). -/
  script : Script
  /-- The words `HostRead` has returned, newest first (20_memory R62). -/
  reads : List Word
deriving DecidableEq, Repr

/-- The machine: the block, the host that drives it, and whose turns come next. -/
structure State where
  /-- The block: exactly the state 10_state R20 lists. -/
  block : Block
  /-- The host (log 1). -/
  host : HostSide
  /-- The agents that move next, first first: one placement of `Complete` and `Reset` among the host's transactions
  (LATENCY is open, 70_reset R251). DESIGN CHOICE (log 2). -/
  turns : List Agent
deriving DecidableEq, Repr

/-- STATUS after reset (10_state R41). -/
def Status.reset : Status where
  busy := false
  done := false
  hzd := false
  err := 0

/-- Five zero words. -/
def Words5.zero : Words5 where
  a := 0
  b := 0
  c := 0
  d := 0
  e := 0

/-- The working variables at zero: after reset and after ZEROIZE (10_state R39, R41, 44_system R200). -/
def Work.zero : Work where
  k0 := Vector.replicate 64 0
  iblk := Vector.replicate 64 0
  oblk := Vector.replicate 64 0
  sched := Vector.replicate 80 0
  chain := Words5.zero
  vars := Words5.zero
  inner := Vector.replicate 20 0

/-- The block after `Reset`: every value of 10_state R41. -/
def Block.reset : Block where
  status := Status.reset
  hexlen := 0
  keylen := 0
  counter := 0
  now := 0
  keyhex := Vector.replicate 64 0
  key := Vector.replicate 32 0
  digest := Vector.replicate 20 0
  offset := 0
  binary := 0
  code := 0
  digits := Vector.replicate 6 0
  cw := 0
  work := Work.zero

/-- The host before it has done anything, with no line to perform: no program is placed (log 3). -/
def HostSide.reset : HostSide where
  script := .done
  reads := []

/-- The machine right after reset: the block as 10_state R41 says, no host line and no turn placed (log 1, log 2). -/
def State.reset : State where
  block := Block.reset
  host := HostSide.reset
  turns := []

end Sys2Proof.Machine
end

