-- ==== Sys2Proof/Machine/Flags.lean ====
section
/-! DEFINITION. STATUS: its layout as a word, the error codes, and the three ways it changes (10_state R33 to R37,
60_exceptions R211, 20_memory R63, 30_encoding R97). -/

namespace Sys2Proof.Machine

/-- The errors a command can raise (60_exceptions R211). -/
inductive CmdError where
  /-- KEYDEC: wrong length or a non-hex character (60_exceptions R212). -/
  | invalidKeyFormat
  /-- HMAC, HOTP, TOTP: KEYLEN is not 32 (60_exceptions R213). -/
  | invalidKeyLength
  /-- The accepted word selects no command (60_exceptions R214). -/
  | illegalCommand
deriving DecidableEq, Repr

/-- The code of an error in STATUS.ERR (60_exceptions R211). -/
def errorCode : CmdError → BitVec 4
  | .invalidKeyFormat => 1
  | .invalidKeyLength => 2
  | .illegalCommand => 3

/-- What ERR holds once a command has completed: 0 for success, else the code (10_state R36). -/
def errField : Option CmdError → BitVec 4
  | none => 0
  | some e => errorCode e

/-- A word with bit `n` holding the flag `b` and every other bit 0. -/
def flagBit (b : Bool) (n : Nat) : Word := (BitVec.ofBool b).setWidth 32 <<< n

/-- STATUS as the word the host reads: BUSY bit 0, DONE bit 1, HZD bit 2, bit 3 reserved, ERR bits 7:4, bits 31:8
reserved, reserved bits 0 (10_state R33). -/
def statusWord (s : Status) : Word :=
  (s.err.setWidth 32 <<< 4) ||| flagBit s.hzd 2 ||| flagBit s.done 1 ||| flagBit s.busy 0

/-- STATUS when a command is accepted (20_memory R63): HZD is not touched. -/
def statusAccept (s : Status) : Status := { s with busy := true, done := false, err := 0 }

/-- STATUS when a command completes with `e` (30_encoding R97): HZD is not touched. -/
def statusComplete (s : Status) (e : Option CmdError) : Status :=
  { s with busy := false, done := true, err := errField e }

/-- STATUS when the host writes while BUSY = 1 (20_memory R63). -/
def statusHazard (s : Status) : Status := { s with hzd := true }

end Sys2Proof.Machine
end

