-- ==== Sys2Proof/Machine/Operands.lean ====
section
/-! DEFINITION. Byte order, and how byte strings and 64-bit registers are packed into words (00_scope R6, 20_memory
R66, R67, 41_hmac_sha1 R139): big-endian throughout. -/

namespace Sys2Proof.Machine

/-- `BE32` of four bytes, the first the most significant (00_scope R6). -/
def be32 (b0 b1 b2 b3 : Byte) : Word :=
  (b0.setWidth 32 <<< 24) ||| (b1.setWidth 32 <<< 16) ||| (b2.setWidth 32 <<< 8) ||| b3.setWidth 32

/-- Byte `j` (0 to 3) of `BE32inv(w)`, byte 0 the most significant (00_scope R6). -/
def wordByte (w : Word) (j : Nat) : Byte := (w >>> (8 * (3 - j))).setWidth 8

/-- Word `i` of a byte string: `BE32(S[4i..4i+4])` (20_memory R66). -/
def wordAt {n : Nat} (s : Vector Byte n) (i : Nat) (h : 4 * i + 3 < n) : Word :=
  be32 s[4 * i] s[4 * i + 1] s[4 * i + 2] s[4 * i + 3]

/-- The byte string with bytes `4i` to `4i+3` replaced by `BE32inv(w)` (20_memory R63). -/
def setWordAt {n : Nat} (s : Vector Byte n) (i : Nat) (w : Word) (h : 4 * i + 3 < n) : Vector Byte n :=
  (((s.set (4 * i) (wordByte w 0)).set (4 * i + 1) (wordByte w 1)).set (4 * i + 2) (wordByte w 2)).set
    (4 * i + 3) (wordByte w 3)

/-- `v[63:32]` (20_memory R67). -/
def hiWord (v : DWord) : Word := (v >>> 32).setWidth 32

/-- `v[31:0]` (20_memory R67). -/
def loWord (v : DWord) : Word := v.setWidth 32

/-- The 64-bit value `hi * 2^32 + lo` (20_memory R67). -/
def joinWords (hi lo : Word) : DWord := (hi.setWidth 64 <<< 32) ||| lo.setWidth 64

/-- A 64-bit register with its high word replaced, its low word unchanged (20_memory R63). -/
def setHiWord (v : DWord) (w : Word) : DWord := joinWords w (loWord v)

/-- A 64-bit register with its low word replaced, its high word unchanged (20_memory R63). -/
def setLoWord (v : DWord) (w : Word) : DWord := joinWords (hiWord v) w

/-- `BE64inv(v)`, which is also `BE8(counter)`: byte `i` is `(v >> (8 * (7 - i))) & 0xFF` (00_scope R6,
41_hmac_sha1 R139). -/
def be64 (v : DWord) : Vector Byte 8 := Vector.ofFn fun i => (v >>> (8 * (7 - i.val))).setWidth 8

/-- A byte string of `n` zero bytes, `0x00^n` (00_scope R6). -/
def zeroBytes (n : Nat) : Vector Byte n := Vector.replicate n 0

end Sys2Proof.Machine
end

