-- ==== Sys2Proof/Machine/Ops.lean ====
section
/-! DEFINITION. The named operations on the block: the register map and the host's two transactions (20_memory R61
to R63), acceptance, completion and error entry (30_encoding R97, 60_exceptions R218), and `Reset` (70_reset R240). -/

namespace Sys2Proof.Machine

/-- The register map: which register stands at a slot (20_memory R61). -/
def regOfSlot (k : Slot) : Reg :=
  if h : k.toNat < 8 then
    match k.toNat, h with
    | 0, _ => .cmd
    | 1, _ => .status
    | 2, _ => .hexlen
    | 3, _ => .keylen
    | 4, _ => .counterHi
    | 5, _ => .counterLo
    | 6, _ => .nowHi
    | _, _ => .nowLo
  else if h : k.toNat < 24 then .keyhex ⟨k.toNat - 8, by omega⟩
  else if h : k.toNat < 32 then .key ⟨k.toNat - 24, by omega⟩
  else if h : k.toNat < 37 then .digest ⟨k.toNat - 32, by omega⟩
  else if k.toNat = 37 then .offset
  else if k.toNat = 38 then .binary
  else if k.toNat = 39 then .code
  else if k.toNat = 40 then .digits0
  else if k.toNat = 41 then .digits1
  else .reserved ⟨k.toNat - 42, by have := k.isLt; omega⟩

/-- The slot at which a register stands (20_memory R61). -/
def slotOfReg : Reg → Slot
  | .cmd => 0
  | .status => 1
  | .hexlen => 2
  | .keylen => 3
  | .counterHi => 4
  | .counterLo => 5
  | .nowHi => 6
  | .nowLo => 7
  | .keyhex i => BitVec.ofNat 6 (8 + i.val)
  | .key i => BitVec.ofNat 6 (24 + i.val)
  | .digest i => BitVec.ofNat 6 (32 + i.val)
  | .offset => 37
  | .binary => 38
  | .code => 39
  | .digits0 => 40
  | .digits1 => 41
  | .reserved i => BitVec.ofNat 6 (42 + i.val)

/-- The word the register map assigns to a register (20_memory R61, R66, R67): CMD and reserved slots give 0
(10_state R38, 20_memory R69). -/
def regValue (b : Block) : Reg → Word
  | .cmd => 0
  | .status => statusWord b.status
  | .hexlen => b.hexlen
  | .keylen => b.keylen
  | .counterHi => hiWord b.counter
  | .counterLo => loWord b.counter
  | .nowHi => hiWord b.now
  | .nowLo => loWord b.now
  | .keyhex i => wordAt b.keyhex i.val (by omega)
  | .key i => wordAt b.key i.val (by omega)
  | .digest i => wordAt b.digest i.val (by omega)
  | .offset => b.offset.setWidth 32
  | .binary => b.binary.setWidth 32
  | .code => b.code.setWidth 32
  | .digits0 => wordAt b.digits 0 (by omega)
  | .digits1 => be32 b.digits[4] b.digits[5] 0 0
  | .reserved _ => 0

/-- `Value(off)` (20_memory R62). -/
def slotValue (b : Block) (k : Slot) : Word := regValue b (regOfSlot k)

/-- `HostRead(off)`: the word returned; no state changes (20_memory R62). -/
def hostRead (b : Block) (k : Slot) : Word :=
  match regOfSlot k with
  | .status => statusWord b.status
  | r => if b.status.busy then 0 else regValue b r

/-- "Store v in that slot" for the read-write slots of 20_memory R61; a read-only or reserved slot ignores the
write (20_memory R63, R69). CMD stores nothing here: an idle write to it is `acceptCommand`. -/
def storeReg (b : Block) (r : Reg) (v : Word) : Block :=
  match r with
  | .cmd => b
  | .status => b
  | .hexlen => { b with hexlen := v }
  | .keylen => { b with keylen := v }
  | .counterHi => { b with counter := setHiWord b.counter v }
  | .counterLo => { b with counter := setLoWord b.counter v }
  | .nowHi => { b with now := setHiWord b.now v }
  | .nowLo => { b with now := setLoWord b.now v }
  | .keyhex i => { b with keyhex := setWordAt b.keyhex i.val v (by omega) }
  | .key i => { b with key := setWordAt b.key i.val v (by omega) }
  | .digest i => { b with digest := setWordAt b.digest i.val v (by omega) }
  | .offset => b
  | .binary => b
  | .code => b
  | .digits0 => b
  | .digits1 => b
  | .reserved _ => b

/-- Acceptance of a command: the word is kept in CW, BUSY is set, DONE and ERR are cleared (20_memory R63). Any
word is accepted, legal or not (60_exceptions R214). -/
def acceptCommand (b : Block) (v : Word) : Block := { b with cw := v, status := statusAccept b.status }

/-- `HostWrite(off, v)` (20_memory R63). -/
def hostWrite (b : Block) (k : Slot) (v : Word) : Block :=
  if b.status.busy then { b with status := statusHazard b.status }
  else
    match regOfSlot k with
    | .cmd => acceptCommand b v
    | r => storeReg b r v

/-- What a command's pseudocode returns: the block with the register writes its rule lists, and the error it
raised, if any (30_encoding R97). -/
abbrev Result := Block × Option CmdError

/-- A command that raised nothing. -/
def succeed (b : Block) : Result := (b, none)

/-- `raise E`: the command ends with error `e` and with the register writes `b` its rule lists for it (00_scope R8,
60_exceptions R218). -/
def raise (e : CmdError) (b : Block) : Result := (b, some e)

/-- The end of `Complete`: ERR <- e, DONE <- 1, BUSY <- 0 (30_encoding R97). The one place where an error is
entered (60_exceptions R218): nothing is saved, control goes nowhere. CW is written at acceptance and at reset only,
so it stays (10_state R39 (a)). -/
def completeBlock (r : Result) : Block := { r.1 with status := statusComplete r.1.status r.2 }

/-- The machine once the held command has completed with result `r`. -/
def finish (s : State) (r : Result) : Host.Outcome State Fault Refusal :=
  .next { s with block := completeBlock r }

/-- `Complete` for a word that selects no command: ERR = 3 and no other change (30_encoding R93, R97, 60_exceptions
R214). -/
def execIllegal (s : State) : Host.Outcome State Fault Refusal :=
  finish s (raise .illegalCommand s.block)

/-- KEY and KEYLEN as KEYDEC leaves them (40_keycodec R112). -/
def setKey (b : Block) (key : Vector Byte 32) (len : Word) : Block := { b with key := key, keylen := len }

/-- DIGEST cleared, as a failing HMAC or HOTP leaves it (41_hmac_sha1 R141, 43_hotp_totp R180). -/
def clearDigest (b : Block) : Block := { b with digest := zeroBytes 20 }

/-- OFFSET, BINARY, CODE and DIGITS cleared, DIGITS to six 0x00 bytes (43_hotp_totp R180, 44_system R200). -/
def clearCode (b : Block) : Block :=
  { b with offset := 0, binary := 0, code := 0, digits := zeroBytes 6 }

/-- `Reset`: every piece of the block's state at its reset value, whatever it was (70_reset R240, R242). The host's
side and the turns are no state of the block and stay. -/
def resetBlock (s : State) : State := { s with block := Block.reset }

end Sys2Proof.Machine
end

