-- ==== Sys2Proof/Machine/KeyCodec.lean ====
section
/-! DEFINITION. The hex key decoder and its command KEYDEC (40_keycodec R110 to R114). -/

namespace Sys2Proof.Machine

/-- `IsHex(c)`: the 22 ASCII hex digits (40_keycodec R110). -/
def isHex (c : Byte) : Bool :=
  (0x30 ≤ c && c ≤ 0x39) || (0x41 ≤ c && c ≤ 0x46) || (0x61 ≤ c && c ≤ 0x66)

/-- `Nib(c)`: the 4-bit value of a hex digit (40_keycodec R111); only used where `isHex c`. -/
def nib (c : Byte) : BitVec 4 :=
  if c ≤ 0x39 then (c - 0x30).setWidth 4
  else if c ≤ 0x46 then (c - 0x37).setWidth 4
  else (c - 0x57).setWidth 4

/-- The decoded key: byte `j` from characters `2j` (high nibble) and `2j + 1` (low nibble) (40_keycodec R112). -/
def decodeHex (s : Vector Byte 64) : Vector Byte 32 :=
  Vector.ofFn fun j => ((nib s[2 * j.val]).setWidth 8 <<< 4) ||| (nib s[2 * j.val + 1]).setWidth 8

/-- The acceptance test: HEXLEN is 64 and all 64 characters are hex digits (40_keycodec R112, R113). -/
def keyStringOk (b : Block) : Bool := b.hexlen == Config.hexChars && b.keyhex.toList.all isHex

/-- `ExecKEYDEC()` (40_keycodec R112): on failure the old key is destroyed (R114). -/
def runKeydec (b : Block) : Result :=
  if keyStringOk b then succeed (setKey b (decodeHex b.keyhex) Config.keyBytes)
  else raise .invalidKeyFormat (setKey b (zeroBytes 32) 0)

/-- KEYDEC (40_keycodec R112). -/
def execKeydec (s : State) : Host.Outcome State Fault Refusal := finish s (runKeydec s.block)

end Sys2Proof.Machine
end

