-- ==== Sys2Proof/Machine/Sha1.lean ====
section
/-! DEFINITION. SHA-1 (41_hmac_sha1 R130 to R134) and, as the clear form the engine is compared with, SHA-1 of any
byte string (R143). -/

namespace Sys2Proof.Machine

/-- `ROTL(w, n)`: `((w << n) | (w >> (32 - n))) mod 2^32` (00_scope R7). -/
def rotl (w : Word) (n : Nat) : Word := (w <<< n) ||| (w >>> (32 - n))

/-- The initial chaining value (41_hmac_sha1 R131). -/
def sha1Iv : Words5 where
  a := 0x67452301
  b := 0xEFCDAB89
  c := 0x98BADCFE
  d := 0x10325476
  e := 0xC3D2E1F0

/-- The round function `f(t, b, c, d)` (41_hmac_sha1 R132). -/
def roundF (t : Nat) (b c d : Word) : Word :=
  if t < 20 then (b &&& c) ||| (~~~b &&& d)
  else if t < 40 then b ^^^ c ^^^ d
  else if t < 60 then (b &&& c) ||| (b &&& d) ||| (c &&& d)
  else b ^^^ c ^^^ d

/-- The round constant `K(t)` (41_hmac_sha1 R132). -/
def roundK (t : Nat) : Word :=
  if t < 20 then 0x5A827999
  else if t < 40 then 0x6ED9EBA1
  else if t < 60 then 0x8F1BBCDC
  else 0xCA62C1D6

/-- The first `16 + n` words of a block's schedule: the block as sixteen big-endian words, then
`W[t] = ROTL(W[t-3] ^ W[t-8] ^ W[t-14] ^ W[t-16], 1)` (41_hmac_sha1 R133). -/
def schedulePart (blk : Vector Byte 64) : (n : Nat) → Vector Word (16 + n)
  | 0 => Vector.ofFn fun i => wordAt blk i.val (by omega)
  | n + 1 =>
    let w := schedulePart blk n
    w.push (rotl (w[16 + n - 3] ^^^ w[16 + n - 8] ^^^ w[16 + n - 14] ^^^ w[16 + n - 16]) 1)

/-- The schedule `W[0..79]` of a block (41_hmac_sha1 R133). -/
def schedule (blk : Vector Byte 64) : Vector Word 80 := schedulePart blk 64

/-- One round of the compression function, with schedule word `w` (41_hmac_sha1 R134). -/
def sha1Round (t : Nat) (w : Word) (v : Words5) : Words5 where
  a := rotl v.a 5 + roundF t v.b v.c v.d + v.e + roundK t + w
  b := v.a
  c := rotl v.b 30
  d := v.c
  e := v.d

/-- The five round variables after the first `n` rounds (41_hmac_sha1 R134). -/
def sha1Rounds (w : Vector Word 80) (h : Words5) : (n : Nat) → n ≤ 80 → Words5
  | 0, _ => h
  | n + 1, hn => sha1Round n w[n] (sha1Rounds w h n (by omega))

/-- The five round variables after all 80 rounds. -/
def compressVars (h : Words5) (blk : Vector Byte 64) : Words5 := sha1Rounds (schedule blk) h 80 (by omega)

/-- `Compress(H, B)` (41_hmac_sha1 R134). -/
def compress (h : Words5) (blk : Vector Byte 64) : Words5 :=
  let v := compressVars h blk
  { a := h.a + v.a, b := h.b + v.b, c := h.c + v.c, d := h.d + v.d, e := h.e + v.e }

/-- `BE32inv(S.0) || ... || BE32inv(S.4)`: the 20 bytes of a chaining value (41_hmac_sha1 R140). -/
def digestBytes (h : Words5) : Vector Byte 20 :=
  #v[wordByte h.a 0, wordByte h.a 1, wordByte h.a 2, wordByte h.a 3,
     wordByte h.b 0, wordByte h.b 1, wordByte h.b 2, wordByte h.b 3,
     wordByte h.c 0, wordByte h.c 1, wordByte h.c 2, wordByte h.c 3,
     wordByte h.d 0, wordByte h.d 1, wordByte h.d 2, wordByte h.d 3,
     wordByte h.e 0, wordByte h.e 1, wordByte h.e 2, wordByte h.e 3]

/-- The padding of `SHA1(m)`: 0x80, the least number of zero bytes that makes the length 56 modulo 64, and the bit
length as 8 big-endian bytes (41_hmac_sha1 R143). -/
def sha1Pad (m : List Byte) : List Byte :=
  m ++ [0x80] ++ List.replicate ((119 - m.length % 64) % 64) 0 ++ (be64 (BitVec.ofNat 64 (8 * m.length))).toList

/-- The first 64 bytes of a byte string as a block. -/
def firstBlock (m : List Byte) : Vector Byte 64 := Vector.ofFn fun i => m.getD i.val 0

/-- `Compress` folded over the first `n` 64-byte blocks of a byte string (41_hmac_sha1 R143). -/
def compressBlocks : Nat → Words5 → List Byte → Words5
  | 0, h, _ => h
  | n + 1, h, m => compressBlocks n (compress h (firstBlock m)) (m.drop Config.sha1BlockBytes)

/-- `SHA1(m)` for any byte string (41_hmac_sha1 R143). -/
def sha1 (m : List Byte) : Vector Byte 20 :=
  digestBytes (compressBlocks ((sha1Pad m).length / Config.sha1BlockBytes) sha1Iv (sha1Pad m))

end Sys2Proof.Machine
end

