-- ==== Sys2Proof/Machine/Hmac.lean ====
section
/-! DEFINITION. HMAC-SHA1 for a 32-byte key and the 8-byte counter, and its command HMAC (41_hmac_sha1 R135 to R142);
beside it general HMAC-SHA1 (R143), which no command offers (00_scope R3 (f)) and with which the engine is compared. -/

namespace Sys2Proof.Machine

/-- The padded key block `K0 = KEY || 0x00^32` (41_hmac_sha1 R135). -/
def paddedKey (key : Vector Byte 32) : Vector Byte 64 := ⟨⟨key.toList ++ List.replicate 32 0⟩, by simp⟩

/-- A pad block: `K0[i] ^ pad` (41_hmac_sha1 R136). -/
def padBlock (k0 : Vector Byte 64) (pad : Byte) : Vector Byte 64 := Vector.ofFn fun i => k0[i.val] ^^^ pad

/-- The second inner block `M2 = M || 0x80 || 0x00^47 || BE64inv(576)` (41_hmac_sha1 R137). -/
def secondInner (m : Vector Byte 8) : Vector Byte 64 :=
  ⟨⟨m.toList ++ [0x80] ++ List.replicate 47 0 ++ (be64 576).toList⟩, by simp⟩

/-- The second outer block `M4 = INNER || 0x80 || 0x00^35 || BE64inv(672)` (41_hmac_sha1 R138). -/
def secondOuter (inner : Vector Byte 20) : Vector Byte 64 :=
  ⟨⟨inner.toList ++ [0x80] ++ List.replicate 35 0 ++ (be64 672).toList⟩, by simp⟩

/-- INNER of `HMAC8` (41_hmac_sha1 R140): S1, then S2, then its bytes. -/
def innerDigest (key : Vector Byte 32) (counter : DWord) : Vector Byte 20 :=
  digestBytes (compress (compress sha1Iv (padBlock (paddedKey key) Config.ipad)) (secondInner (be64 counter)))

/-- S3 of `HMAC8` (41_hmac_sha1 R140). -/
def outerChain (key : Vector Byte 32) : Words5 := compress sha1Iv (padBlock (paddedKey key) Config.opad)

/-- S4 of `HMAC8` (41_hmac_sha1 R140). -/
def finalChain (key : Vector Byte 32) (counter : DWord) : Words5 :=
  compress (outerChain key) (secondOuter (innerDigest key counter))

/-- `HMAC8(key, counter)` (41_hmac_sha1 R140). -/
def hmac8 (key : Vector Byte 32) (counter : DWord) : Vector Byte 20 := digestBytes (finalChain key counter)

/-- The hidden working variables when `HMAC8` has run: each holds what it was assigned last (10_state R39 (b)).
Nothing reads them. DEDUCED, safe (log 8). -/
def hmacWork (key : Vector Byte 32) (counter : DWord) : Work where
  k0 := paddedKey key
  iblk := padBlock (paddedKey key) Config.ipad
  oblk := padBlock (paddedKey key) Config.opad
  sched := schedule (secondOuter (innerDigest key counter))
  chain := finalChain key counter
  vars := compressVars (outerChain key) (secondOuter (innerDigest key counter))
  inner := innerDigest key counter

/-- `DIGEST <- HMAC8(KEY, COUNTER)`, with the working variables it goes through: the step HMAC and HOTP share
(41_hmac_sha1 R141, 43_hotp_totp R180). -/
def computeDigest (b : Block) : Block :=
  { b with digest := hmac8 b.key b.counter, work := hmacWork b.key b.counter }

/-- The key-length check of HMAC, HOTP and TOTP: KEYLEN is 32, on all 32 bits (41_hmac_sha1 R142). -/
def keyLengthOk (b : Block) : Bool := b.keylen == Config.keyBytes

/-- `ExecHMAC()` (41_hmac_sha1 R141, R142). -/
def runHmac (b : Block) : Result :=
  if keyLengthOk b then succeed (computeDigest b)
  else raise .invalidKeyLength (clearDigest b)

/-- HMAC (41_hmac_sha1 R141). -/
def execHmac (s : State) : Host.Outcome State Fault Refusal := finish s (runHmac s.block)

/-- A key extended with zero bytes on the right to the block length; a longer key is hashed first (41_hmac_sha1 R135,
R143). -/
def generalKeyBlock (k : List Byte) : List Byte :=
  let k' := if k.length ≤ Config.sha1BlockBytes then k else (sha1 k).toList
  k' ++ List.replicate (Config.sha1BlockBytes - k'.length) 0

/-- General `HMAC-SHA1(k, m) = SHA1((K0 ^ opad) || SHA1((K0 ^ ipad) || m))` (41_hmac_sha1 R143). -/
def hmacSha1 (k m : List Byte) : Vector Byte 20 :=
  sha1 ((generalKeyBlock k).map (· ^^^ Config.opad) ++
    (sha1 ((generalKeyBlock k).map (· ^^^ Config.ipad) ++ m)).toList)

end Sys2Proof.Machine
end

