-- ==== Sys2Proof/Machine/Truncation.lean ====
section
/-! DEFINITION. Dynamic truncation, modulo and decimal digits, and the command TRUNC (42_truncation R160 to R164). -/

namespace Sys2Proof.Machine

/-- `Offset(d) = d[19] & 0x0F` (42_truncation R160). -/
def truncOffset (d : Vector Byte 20) : BitVec 4 := (d[19] &&& Config.offsetMask).setWidth 4

/-- The window index `o` and the three after it lie inside the 20 bytes (42_truncation R165 (a)). -/
theorem truncOffset_window (d : Vector Byte 20) : (truncOffset d).toNat + 3 < 20 := by
  have := (truncOffset d).isLt
  omega

/-- `Binary(d)` (42_truncation R161): the mask is applied to the byte before the shift, and the shift is into 32 bits
(R166); the result has 31 bits (R165 (b)). -/
def truncBinary (d : Vector Byte 20) : BitVec 31 :=
  have h := truncOffset_window d
  let o := (truncOffset d).toNat
  (((d[o] &&& Config.signMask).setWidth 32 <<< 24) ||| (d[o + 1].setWidth 32 <<< 16) |||
    (d[o + 2].setWidth 32 <<< 8) ||| d[o + 3].setWidth 32 : Word).setWidth 31

/-- `Code(d) = Binary(d) mod 1 000 000`, unsigned (42_truncation R162). -/
def otpCode (binary : BitVec 31) : BitVec 20 := BitVec.ofNat 20 (binary.toNat % Config.modulus)

/-- `Digits(n)`: six decimal digits of `n` in ASCII, most significant first (42_truncation R163). -/
def otpDigits (n : BitVec 20) : Vector Byte 6 :=
  Vector.ofFn fun i => BitVec.ofNat 8 (0x30 + n.toNat / 10 ^ (5 - i.val) % 10)

/-- `ExecTRUNC()` on the block, shared by TRUNC and HOTP (42_truncation R164, 43_hotp_totp R180). -/
def truncate (b : Block) : Block :=
  let bin := truncBinary b.digest
  { b with
    offset := truncOffset b.digest
    binary := bin
    code := otpCode bin
    digits := otpDigits (otpCode bin) }

/-- `ExecTRUNC()` (42_truncation R164): it cannot fail. -/
def runTrunc (b : Block) : Result := succeed (truncate b)

/-- TRUNC (42_truncation R164). -/
def execTrunc (s : State) : Host.Outcome State Fault Refusal := finish s (runTrunc s.block)

end Sys2Proof.Machine
end

