-- ==== Sys2Proof/Machine/Otp.lean ====
section
/-! DEFINITION. The composed commands HOTP and TOTP (43_hotp_totp R180 to R182). -/

namespace Sys2Proof.Machine

/-- `ExecHOTP()` (43_hotp_totp R180): the key-length check, then HMAC's digest, then TRUNC on the new digest. -/
def runHotp (b : Block) : Result :=
  if keyLengthOk b then succeed (truncate (computeDigest b))
  else raise .invalidKeyLength (clearCode (clearDigest b))

/-- HOTP (43_hotp_totp R180). -/
def execHotp (s : State) : Host.Outcome State Fault Refusal := finish s (runHotp s.block)

/-- `TimeStep(now) = floor(now / 30)`, unsigned (43_hotp_totp R181). -/
def totpCounter (now : DWord) : DWord := now / Config.timeStep

/-- `COUNTER <- floor(NOW / 30)` (43_hotp_totp R182). -/
def setTotpCounter (b : Block) : Block := { b with counter := totpCounter b.now }

/-- `ExecTOTP()` (43_hotp_totp R182): COUNTER is written first, and also when the key-length check then fails. -/
def runTotp (b : Block) : Result := runHotp (setTotpCounter b)

/-- TOTP (43_hotp_totp R182). -/
def execTotp (s : State) : Host.Outcome State Fault Refusal := finish s (runTotp s.block)

end Sys2Proof.Machine
end

