-- ==== Sys2Proof/Machine/System.lean ====
section
/-! DEFINITION. The one system command, ZEROIZE (44_system R200 to R202). -/

namespace Sys2Proof.Machine

/-- `ExecZEROIZE()` (44_system R200): every data register and the hidden working variables to zero. STATUS.HZD and CW
are no data registers and keep their value (R202, 10_state R39 (a)). -/
def runZeroize (b : Block) : Result :=
  succeed (clearCode
    { b with
      hexlen := 0
      keylen := 0
      counter := 0
      now := 0
      keyhex := zeroBytes 64
      key := zeroBytes 32
      digest := zeroBytes 20
      work := Work.zero })

/-- ZEROIZE (44_system R200). -/
def execZeroize (s : State) : Host.Outcome State Fault Refusal := finish s (runZeroize s.block)

end Sys2Proof.Machine
end

