-- ==== Sys2Proof/Machine/Dispatch.lean ====
section
/-! DEFINITION. `Complete` for each command, one arm per constructor of `Instr` (30_encoding R97). `step` calls it
when the engine holds a command word that decodes to the instruction. -/

namespace Sys2Proof.Machine

def exec (i : Instr) (s : State) : Host.Outcome State Fault Refusal :=
  match i with
  | .keydec => Sys2Proof.Machine.execKeydec s
  | .hmac => Sys2Proof.Machine.execHmac s
  | .trunc => Sys2Proof.Machine.execTrunc s
  | .hotp => Sys2Proof.Machine.execHotp s
  | .totp => Sys2Proof.Machine.execTotp s
  | .zeroize => Sys2Proof.Machine.execZeroize s

end Sys2Proof.Machine
end

