-- ==== Sys2Proof/Machine/Engine.lean ====
section
/-! DEFINITION. The engine's only move, `Complete` (30_encoding R97), and a command held by it. -/

namespace Sys2Proof.Machine

/-- The engine's turn: `Complete` for the word in CW when a command is held (STATUS.BUSY = 1), nothing when none is
(30_encoding R97). -/
def engineMove (s : State) : Host.Outcome State Fault Refusal :=
  if s.block.status.busy then
    match decode s.block.cw with
    | .ok i => exec i s
    | .error _ => execIllegal s
  else .next s

/-- `s` with the command word `w` accepted, as an idle host write of it to CMD leaves the block (20_memory R63), and
the next turn the engine's (log 3). -/
def placeCommand (s : State) (w : Word) : State :=
  { s with block := acceptCommand s.block w, turns := .engine :: s.turns }

end Sys2Proof.Machine
end

