-- ==== Sys2Proof/Machine/HostScript.lean ====
section
/-! DEFINITION. The host: one move of its script (30_encoding R95, R98), the pseudo-instructions of R95 as the lines
they stand for, and whose turn comes next (00_scope R9). -/

namespace Sys2Proof.Machine

/-- `HostRead(off)` by the host: the returned word is what it read last; the block is unchanged (20_memory R62). -/
def hostReads (s : State) (k : Slot) : State :=
  { s with host := { s.host with reads := hostRead s.block k :: s.host.reads } }

/-- `HostWrite(off, v)` by the host (20_memory R63). -/
def hostWrites (s : State) (k : Slot) (v : Word) : State := { s with block := hostWrite s.block k v }

/-- The host's script replaced by what is left of it. -/
def setScript (s : State) (t : Script) : State := { s with host := { s.host with script := t } }

/-- Does the word a poll of STATUS returns show BUSY = 0 (10_state R33, bit 0)? -/
def pollSaysIdle (w : Word) : Bool := w.getLsbD 0 == false

/-- Does an IF line's condition hold of what the host has read (30_encoding R95)? With nothing read it does not
hold. DESIGN CHOICE, safe (log 6). -/
def condHolds (c : Cond) (reads : List Word) : Bool :=
  match reads with
  | [] => false
  | w :: _ => w &&& c.mask == c.value

/-- The host performs the next line of its script (30_encoding R95). `WAIT` is one poll of STATUS; the line stays
until a poll shows BUSY = 0 (log 5). `IF` touches no slot. A host with no line left does nothing (70_reset R253). -/
def hostMove (s : State) : State :=
  match s.host.script with
  | .done => s
  | .wr k v rest => setScript (hostWrites s k v) rest
  | .rd k rest => setScript (hostReads s k) rest
  | .wait rest =>
    if pollSaysIdle (hostRead s.block (slotOfReg .status)) then setScript (hostReads s (slotOfReg .status)) rest
    else hostReads s (slotOfReg .status)
  | .ifThen c a b rest => setScript s ((if condHolds c s.host.reads then a else b).append rest)

/-- Whose move comes next: the first of the turns placed; with none placed, the engine if it holds a command, else
the host (log 2). -/
def nextAgent (s : State) : Agent :=
  match s.turns with
  | a :: _ => a
  | [] => if s.block.status.busy then .engine else .host

/-- The state with the turn that is being taken used up. -/
def takeTurn (s : State) : State := { s with turns := s.turns.tail }

/-- `WR reg, value` (30_encoding R95). -/
def lineWr (r : Reg) (v : Word) (rest : Script) : Script := .wr (slotOfReg r) v rest

/-- `RD reg` (30_encoding R95). -/
def lineRd (r : Reg) (rest : Script) : Script := .rd (slotOfReg r) rest

/-- `CMD mnemonic`: `WR CMD, word` with the command's word (30_encoding R95). -/
def lineCmd (i : Instr) (rest : Script) : Script := lineWr .cmd (encode i) rest

/-- `CMD 0xNNNNNNNN`: `WR CMD, 0xNNNNNNNN` (30_encoding R95). -/
def lineCmdWord (w : Word) (rest : Script) : Script := lineWr .cmd w rest

/-- `WR64 COUNTER, v`: the high word, then the low word (30_encoding R95). -/
def lineWr64Counter (v : DWord) (rest : Script) : Script :=
  lineWr .counterHi (hiWord v) (lineWr .counterLo (loWord v) rest)

/-- `WR64 NOW, v` (30_encoding R95). -/
def lineWr64Now (v : DWord) (rest : Script) : Script :=
  lineWr .nowHi (hiWord v) (lineWr .nowLo (loWord v) rest)

/-- The sixteen writes of a 64-byte string to KEYHEX0 to KEYHEX15, in order. -/
def lineKeyhex (s : Vector Byte 64) (rest : Script) : Script :=
  (List.finRange 16).foldr (fun i t => lineWr (.keyhex i) (wordAt s i.val (by omega)) t) rest

/-- `LDHEX "s"`: the string followed by zero bytes up to 64 and cut at 64, in KEYHEX; then HEXLEN <- its length
(30_encoding R95). A length that does not fit the one word written is taken modulo 2^32: DESIGN CHOICE, unsafe for a
claim about so long a string (log 15). -/
def lineLdhex (s : List Byte) (rest : Script) : Script :=
  lineKeyhex (Vector.ofFn fun i => s.getD i.val 0) (lineWr .hexlen (BitVec.ofNat 32 s.length) rest)

/-- `LDKEY hex`: the 32 bytes in KEY0 to KEY7, in order; then KEYLEN <- 32 (30_encoding R95). -/
def lineLdkey (k : Vector Byte 32) (rest : Script) : Script :=
  (List.finRange 8).foldr (fun i t => lineWr (.key i) (wordAt k i.val (by omega)) t)
    (lineWr .keylen Config.keyBytes rest)

/-- `LDDIGEST hex`: the 20 bytes in DIGEST0 to DIGEST4, in order (30_encoding R95). -/
def lineLddigest (d : Vector Byte 20) (rest : Script) : Script :=
  (List.finRange 5).foldr (fun i t => lineWr (.digest i) (wordAt d i.val (by omega)) t) rest

end Sys2Proof.Machine
end

