-- ==== Sys2Proof/Machine/Step.lean ====
section
/-! DEFINITION. One step: one of the four transitions of 00_scope R9, by the agent whose turn it is. -/

namespace Sys2Proof.Machine

/-- One step of the machine: the agent whose turn it is makes its move (00_scope R9). -/
def step (s : State) : Host.Outcome State Fault Refusal :=
  match nextAgent s with
  | .environment => .next (resetBlock (takeTurn s))
  | .engine => engineMove (takeTurn s)
  | .host => .next (hostMove (takeTurn s))

/-- The state in which the command word `w` has been accepted and the very next step completes exactly that command
(log 3). The turn placed is the one that step uses up, so nothing else differs. -/
def State.withFetchWord (s : State) (nbits w : Nat) : State :=
  placeCommand s (BitVec.ofNat 32 (w % 2 ^ nbits))

end Sys2Proof.Machine
end

