-- ==== Sys2Proof/Safety.lean ====
section
/-! DEFINITION. What a safe run is, in the terms the statements use: the block's invariants (10_state R42), the host
protocol (70_reset R244), and what a command may read and write (30_encoding R92). -/

namespace Sys2Proof.Machine

/-- STATUS in every reachable state: ERR is 0 to 3, BUSY and DONE are never both 1 (10_state R42), and while BUSY ERR
is 0 (20_memory R62, R63). -/
abbrev StatusOk (s : Status) : Prop :=
  s.err.toNat ≤ 3 ∧ ¬(s.busy = true ∧ s.done = true) ∧ (s.busy = true → s.err = 0)

/-- Six bytes each in 0x30 to 0x39 (10_state R31). -/
abbrev AreDigits (v : Vector Byte 6) : Prop := ∀ i : Fin 6, 0x30 ≤ v[i].toNat ∧ v[i].toNat ≤ 0x39

/-- The invariants of 10_state R42 on the result registers. -/
abbrev ResultsInRange (b : Block) : Prop :=
  b.offset.toNat < 16 ∧ b.binary.toNat < 2 ^ 31 ∧ b.code.toNat < 1000000 ∧
    (b.digits = zeroBytes 6 ∨ AreDigits b.digits)

/-- CODE and DIGITS always belong to BINARY: they are its code and that code's digits, or all four result registers
are zero (from 42_truncation R162 to R164, 43_hotp_totp R180, 44_system R200, 10_state R41: no rule writes one of
them without the others). -/
abbrev ResultsAgree (b : Block) : Prop :=
  b.code = otpCode b.binary ∧
    (b.digits = otpDigits b.code ∨
      (b.digits = zeroBytes 6 ∧ b.offset = 0 ∧ b.binary = 0 ∧ b.code = 0))

/-- The block's invariant. -/
abbrev BlockInv (b : Block) : Prop := StatusOk b.status ∧ ResultsInRange b ∧ ResultsAgree b

/-- The engine's turn is next: one is placed, or none is placed and a command is held (log 2). -/
abbrev EngineMoves (s : State) : Prop :=
  s.turns.head? = some .engine ∨ (s.turns = [] ∧ s.block.status.busy = true)

/-- The host's turn is next: one is placed, or none is placed and no command is held (log 2). -/
abbrev HostMoves (s : State) : Prop :=
  s.turns.head? = some .host ∨ (s.turns = [] ∧ s.block.status.busy = false)

/-- The lines a host may perform while a poll is owed (70_reset R244: "no write of any slot, no read of any slot other
than STATUS"): a read of STATUS, a WAIT, and the lines that touch no slot. -/
def allowedWhileOwed : Script → Bool
  | .done => true
  | .wr _ _ _ => false
  | .rd k _ => k == slotOfReg .status
  | .wait _ => true
  | .ifThen _ _ _ _ => true

/-- Is a poll owed after the step from `s`, if `owed` says whether one is before it (70_reset R244)? A write to CMD makes
one owed; a read of STATUS that returns BUSY = 0, by RD or by WAIT, settles it. A reset removes the command (70_reset
R242), so nothing is owed after it: DEDUCED, safe (log 16). -/
def pollOwedAfter (owed : Bool) (s : State) : Bool :=
  match nextAgent s with
  | .environment => false
  | .engine => owed
  | .host =>
    match s.host.script with
    | .done => owed
    | .wr k _ _ => owed || k == slotOfReg .cmd
    | .rd k _ => owed && !(k == slotOfReg .status && pollSaysIdle (hostRead s.block k))
    | .wait _ => owed && !pollSaysIdle (hostRead s.block (slotOfReg .status))
    | .ifThen _ _ _ _ => owed

/-- The host keeps the protocol in its next move: while a poll is owed it accesses no slot but STATUS (70_reset
R244). -/
abbrev HostKeepsPolling (owed : Bool) (s : State) : Prop :=
  HostMoves s → owed = true → allowedWhileOwed s.host.script = true

/-- While a command is held, a poll is owed. -/
abbrev PollInv (owed : Bool) (s : State) : Prop := s.block.status.busy = true → owed = true

/-- Walking a script by the words of 30_encoding R98 ("every `CMD` is followed by `WAIT` before any other access"), a
stricter form of the protocol of 70_reset R244: `owed` says whether a `WAIT` is owed before it; the answer says whether
one is owed after it, `none` where a line accesses a slot, STATUS included, while one is owed. `IF` touches no slot, so
it may stand between `CMD` and its `WAIT`, which may come inside a branch or after `END`. Every branch is walked,
whatever the condition, and a `WAIT` is owed after `END` if one of the two leaves it owed: DESIGN CHOICE, safe
(log 16). -/
def waitOwed : Script → Bool → Option Bool
  | .done, owed => some owed
  | .wr k _ rest, owed => if owed then none else waitOwed rest (k == slotOfReg .cmd)
  | .rd _ rest, owed => if owed then none else waitOwed rest false
  | .wait rest, _ => waitOwed rest false
  | .ifThen _ a b rest, owed =>
    match waitOwed a owed, waitOwed b owed with
    | some x, some y => waitOwed rest (x || y)
    | _, none => none
    | none, some _ => none

/-- Every write to CMD is followed by `WAIT` before any other access (30_encoding R98). A write to CMD that no access
follows breaks nothing (log 16). -/
def keepsProtocol (s : Script) : Bool := (waitOwed s false).isSome

/-- The rest of the host's script follows every write to CMD by `WAIT`, with one owed while a command is held. -/
abbrev ProtocolInv (s : State) : Prop := (waitOwed s.host.script s.block.status.busy).isSome = true

/-- The run has ended: no line is left and no command is held (30_encoding R98). -/
abbrev Finished (s : State) : Prop := s.host.script = .done ∧ s.block.status.busy = false

/-- No `Reset` is among the turns placed. -/
abbrev NoReset (turns : List Agent) : Prop := Agent.environment ∉ turns

/-- Two blocks that differ at most in hidden state: the working variables, and CW while no command is held
(10_state R39; 93 U15). -/
abbrev SameButHidden (b c : Block) : Prop :=
  c = { b with work := c.work, cw := c.cw } ∧ (b.status.busy = true → c.cw = b.cw)

/-- The slots a command writes, on success or on error, besides STATUS (30_encoding R92). -/
def writesSlot (i : Instr) (k : Slot) : Bool :=
  match i, regOfSlot k with
  | .keydec, .key _ => true
  | .keydec, .keylen => true
  | .hmac, .digest _ => true
  | .trunc, r => isCodeReg r
  | .hotp, .digest _ => true
  | .hotp, r => isCodeReg r
  | .totp, .digest _ => true
  | .totp, .counterHi => true
  | .totp, .counterLo => true
  | .totp, r => isCodeReg r
  | .zeroize, _ => true
  | _, _ => false
where
  /-- OFFSET, BINARY, CODE, DIGITS. -/
  isCodeReg : Reg → Bool
    | .offset => true
    | .binary => true
    | .code => true
    | .digits0 => true
    | .digits1 => true
    | _ => false

/-- The value of a hex digit, by its place among the characters '0' to '9', 'a' to 'f', 'A' to 'F' (40_keycodec R110,
R111). -/
def hexDigitValue (c : Byte) : Option Nat :=
  if 48 ≤ c.toNat ∧ c.toNat ≤ 57 then some (c.toNat - 48)
  else if 97 ≤ c.toNat ∧ c.toNat ≤ 102 then some (c.toNat - 97 + 10)
  else if 65 ≤ c.toNat ∧ c.toNat ≤ 70 then some (c.toNat - 65 + 10)
  else none

/-- The hex digit of a nibble, in upper or lower case. -/
def hexDigit (upper : Bool) (n : BitVec 4) : Byte :=
  if n.toNat < 10 then BitVec.ofNat 8 (48 + n.toNat)
  else BitVec.ofNat 8 ((if upper then 65 else 97) + (n.toNat - 10))

/-- `encode_hex(bytes)`: two hex digits a byte, high nibble first, each in either case (40_keycodec R115 (b)). -/
def encodeHex (upper : Vector Bool 64) (key : Vector Byte 32) : Vector Byte 64 :=
  Vector.ofFn fun i =>
    hexDigit upper[i.val]
      (if i.val % 2 = 0 then (key[i.val / 2]).extractLsb' 4 4 else (key[i.val / 2]).extractLsb' 0 4)

/-- KEYDEC's input is a key string: HEXLEN is 64 and every character is a hex digit (40_keycodec R112). -/
abbrev KeyStringValid (b : Block) : Prop :=
  b.hexlen.toNat = 64 ∧ ∀ i : Fin 64, (hexDigitValue b.keyhex[i]).isSome = true

/-- The number whose four big-endian bytes these are (00_scope R6, `BE32`). -/
def bytesValue (b0 b1 b2 b3 : Byte) : Nat :=
  b0.toNat * 2 ^ 24 + b1.toNat * 2 ^ 16 + b2.toNat * 2 ^ 8 + b3.toNat

/-- The 20 bytes are the five words, each most significant byte first (41_hmac_sha1 R140). -/
abbrev Words5OfBytes (d : Vector Byte 20) (h : Words5) : Prop :=
  bytesValue d[0] d[1] d[2] d[3] = h.a.toNat ∧ bytesValue d[4] d[5] d[6] d[7] = h.b.toNat ∧
    bytesValue d[8] d[9] d[10] d[11] = h.c.toNat ∧ bytesValue d[12] d[13] d[14] d[15] = h.d.toNat ∧
    bytesValue d[16] d[17] d[18] d[19] = h.e.toNat

/-- The two blocks hold the same OFFSET, BINARY, CODE and DIGITS. -/
abbrev SameCode (b c : Block) : Prop :=
  b.offset = c.offset ∧ b.binary = c.binary ∧ b.code = c.code ∧ b.digits = c.digits

/-- STATUS after a command has completed with error code `e` (30_encoding R97). -/
def doneStatus (s : Status) (e : BitVec 4) : Status where
  busy := false
  done := true
  hzd := s.hzd
  err := e

end Sys2Proof.Machine
end

