-- ==== Sys2Proof/Certificates/Slice0/Obligations.lean ====
section
/-! DEFINITION. The statements for the provers. Each docstring names the rules of spec/ its statement formalises.
Where a command writes the hidden working variables, the statement says only that some value is written (log 8). Which
agent moves when no turn is placed is the model's choice (log 2): it is the second case of `EngineMoves` and of
`HostMoves`, and the statements that use them cover a placed turn as well. -/

open Sys2Proof Sys2Proof.Machine

/-! ### Encoding -/

/-- Decoding and encoding agree, on every instruction and on every word (30_encoding R91, R96). -/
def Obligations.DecodeIsInverseOfEncode : Prop :=
  (∀ i : Instr, i.wellFormed = true → decode (encode i) = .ok i) ∧
    ∀ (w : Word) (i : Instr), decode w = .ok i → w = encode i

/-- `Decode` is total on words and sends each to what R96 says; the clauses cut the words by their value as a number,
so that no two overlap (30_encoding R96). -/
def Obligations.DecodeFollowsTheOpcodeMap : Prop :=
  ∀ w : Word,
    (256 ≤ w.toNat → decode w = .error .reservedNotZero) ∧
      (w.toNat = 0 → decode w = .error .opcodeNotListed) ∧
      (w.toNat = 1 → decode w = .ok .keydec) ∧
      (w.toNat = 2 → decode w = .ok .hmac) ∧
      (w.toNat = 3 → decode w = .ok .trunc) ∧
      (w.toNat = 4 → decode w = .ok .hotp) ∧
      (w.toNat = 5 → decode w = .ok .totp) ∧
      (w.toNat = 6 → decode w = .ok .zeroize) ∧
      (7 ≤ w.toNat → w.toNat ≤ 255 → decode w = .error .opcodeNotListed)

/-- A word is legal exactly when it passes the checks of WellFormed: RSV zero and OPC listed (30_encoding R93). -/
def Obligations.LegalWordsAreTheWellFormedOnes : Prop :=
  ∀ w : Word, (∃ i, decode w = .ok i) ↔ wordWellFormed w = true

/-- The six words of the opcode map, and four illegal words beside them (30_encoding R91, R93). -/
def Obligations.ListedWordsDecode : Prop :=
  decode 0x00000001 = .ok .keydec ∧ decode 0x00000002 = .ok .hmac ∧ decode 0x00000003 = .ok .trunc ∧
    decode 0x00000004 = .ok .hotp ∧ decode 0x00000005 = .ok .totp ∧ decode 0x00000006 = .ok .zeroize ∧
    decode 0x00000000 = .error .opcodeNotListed ∧ decode 0x00000007 = .error .opcodeNotListed ∧
    decode 0x00000104 = .error .reservedNotZero ∧ decode 0x80000001 = .error .reservedNotZero

/-! ### The register space -/

/-- Every slot is one register of the map and every register one slot (20_memory R60, R61). -/
def Obligations.SlotsAndRegistersCorrespond : Prop :=
  (∀ k : Slot, slotOfReg (regOfSlot k) = k) ∧ ∀ r : Reg, regOfSlot (slotOfReg r) = r

/-- Byte strings are packed into their slots big-endian (20_memory R66). -/
def Obligations.StringSlotsAreBigEndian : Prop :=
  ∀ b : Block,
    (∀ i : Fin 16, (slotValue b (BitVec.ofNat 6 (8 + i.val))).toNat =
      bytesValue b.keyhex[4 * i.val] b.keyhex[4 * i.val + 1] b.keyhex[4 * i.val + 2] b.keyhex[4 * i.val + 3]) ∧
    (∀ i : Fin 8, (slotValue b (BitVec.ofNat 6 (24 + i.val))).toNat =
      bytesValue b.key[4 * i.val] b.key[4 * i.val + 1] b.key[4 * i.val + 2] b.key[4 * i.val + 3]) ∧
    (∀ i : Fin 5, (slotValue b (BitVec.ofNat 6 (32 + i.val))).toNat =
      bytesValue b.digest[4 * i.val] b.digest[4 * i.val + 1] b.digest[4 * i.val + 2] b.digest[4 * i.val + 3]) ∧
    (slotValue b 40).toNat = bytesValue b.digits[0] b.digits[1] b.digits[2] b.digits[3] ∧
    (slotValue b 41).toNat = bytesValue b.digits[4] b.digits[5] 0 0

/-- A 64-bit register is its two slots, the high word at the lower offset (20_memory R67). -/
def Obligations.DoubleWordSlotsAreHighThenLow : Prop :=
  ∀ b : Block,
    b.counter.toNat = (slotValue b 4).toNat * 2 ^ 32 + (slotValue b 5).toNat ∧
      b.now.toNat = (slotValue b 6).toNat * 2 ^ 32 + (slotValue b 7).toNat

/-- The layout of STATUS: BUSY bit 0, DONE bit 1, HZD bit 2, ERR bits 7:4, everything else 0 (10_state R33). -/
def Obligations.StatusWordLayout : Prop :=
  ∀ b : Block,
    (slotValue b 1).toNat =
      b.status.busy.toNat + 2 * b.status.done.toNat + 4 * b.status.hzd.toNat + 16 * b.status.err.toNat

/-- The slots of numbers hold their register with zeros above, CMD and the reserved slots read 0 (10_state R28 to
R30, R38, 20_memory R61, R69). -/
def Obligations.NumberSlotsReadTheirRegister : Prop :=
  ∀ b : Block,
    slotValue b 0 = 0 ∧ slotValue b 2 = b.hexlen ∧ slotValue b 3 = b.keylen ∧
      (slotValue b 37).toNat = b.offset.toNat ∧ (slotValue b 38).toNat = b.binary.toNat ∧
      (slotValue b 39).toNat = b.code.toNat ∧ ∀ k : Slot, 42 ≤ k.toNat → slotValue b k = 0

/-- `HostRead` (20_memory R62): STATUS always, every other slot 0 while busy and its value while idle; the corner
cases R62 lists; and no read changes the block. -/
def Obligations.HostReadFollowsTheBusyRule : Prop :=
  (∀ b : Block, hostRead b 1 = slotValue b 1) ∧
    (∀ (b : Block) (k : Slot), k ≠ 1 → b.status.busy = true → hostRead b k = 0) ∧
    (∀ (b : Block) (k : Slot), k ≠ 1 → b.status.busy = false → hostRead b k = slotValue b k) ∧
    (∀ b : Block, hostRead b 0 = 0) ∧
    (∀ b : Block, StatusOk b.status → b.status.busy = true →
      (hostRead b 1).toNat = 1 + 4 * b.status.hzd.toNat) ∧
    ∀ (s : State) (k : Slot), (hostReads s k).block = s.block

/-- `HostWrite` (20_memory R63): dropped with HZD set while busy; idle, CMD accepts a command, a read-write slot
stores all 32 bits and nothing else changes, any other slot ignores the write. -/
def Obligations.HostWriteFollowsTheRule : Prop :=
  ∀ (b : Block) (k : Slot) (v : Word),
    (b.status.busy = true → hostWrite b k v = { b with status := { b.status with hzd := true } }) ∧
    (b.status.busy = false → k = 0 →
      hostWrite b k v =
        { b with cw := v, status := { busy := true, done := false, hzd := b.status.hzd, err := 0 } }) ∧
    (b.status.busy = false → 2 ≤ k.toNat → k.toNat ≤ 36 →
      slotValue (hostWrite b k v) k = v ∧
        (∀ k' : Slot, k' ≠ k → slotValue (hostWrite b k v) k' = slotValue b k') ∧
        (hostWrite b k v).status = b.status ∧ (hostWrite b k v).cw = b.cw ∧ (hostWrite b k v).work = b.work) ∧
    (b.status.busy = false → k = 1 ∨ 37 ≤ k.toNat → hostWrite b k v = b)

/-! ### The four transitions -/

/-- When the engine moves while a command is held, the step is `Complete` of the command CW decodes to: `exec` of it,
with the turn used up (30_encoding R97). -/
def Obligations.StepCompletesTheHeldCommand : Prop :=
  ∀ (s : State) (i : Instr), EngineMoves s → s.block.status.busy = true → decode s.block.cw = .ok i →
    step s = exec i { s with turns := s.turns.tail }

/-- A command word placed for the next step is the one it runs, whatever the state (log 3): the block as an accepted
write of it leaves it (20_memory R63), then `exec`. -/
def Obligations.StepRunsThePlacedWord : Prop :=
  ∀ (s : State) (i : Instr),
    step (s.withFetchWord 32 (encode i).toNat) =
      exec i { s with block := { s.block with
        cw := encode i
        status := { busy := true, done := false, hzd := s.block.status.hzd, err := 0 } } }

/-- A word that selects no command completes with ERR = 3 and changes nothing else (60_exceptions R214). -/
def Obligations.IllegalWordCompletesWithCodeThree : Prop :=
  ∀ (s : State), EngineMoves s → s.block.status.busy = true → wordWellFormed s.block.cw = false →
    step s = .next { s with
      block := { s.block with status := doneStatus s.block.status 3 }
      turns := s.turns.tail }

/-- An engine's turn while no command is held does nothing: `Complete` is enabled exactly when BUSY = 1
(30_encoding R97); that such a turn is a step is the model's choice (log 7). -/
def Obligations.EngineTurnWhileIdleDoesNothing : Prop :=
  ∀ (s : State), s.turns.head? = some .engine → s.block.status.busy = false →
    step s = .next { s with turns := s.turns.tail }

/-- `Reset` in any state, busy or idle, leaves the block at its reset state: none of a running command's results
appear (70_reset R240, R242). -/
def Obligations.ResetFromAnyState : Prop :=
  ∀ (s : State), s.turns.head? = some .environment →
    step s = .next { s with block := State.reset.block, turns := s.turns.tail }

/-- The reset values (10_state R41). -/
def Obligations.ResetValues : Prop :=
  State.reset.block.status = { busy := false, done := false, hzd := false, err := 0 } ∧
    State.reset.block.hexlen = 0 ∧ State.reset.block.keylen = 0 ∧ State.reset.block.counter = 0 ∧
    State.reset.block.now = 0 ∧ (∀ i : Fin 64, State.reset.block.keyhex[i] = 0) ∧
    (∀ i : Fin 32, State.reset.block.key[i] = 0) ∧ (∀ i : Fin 20, State.reset.block.digest[i] = 0) ∧
    State.reset.block.offset = 0 ∧ State.reset.block.binary = 0 ∧ State.reset.block.code = 0 ∧
    (∀ i : Fin 6, State.reset.block.digits[i] = 0) ∧ State.reset.block.cw = 0 ∧
    State.reset.block.work = Work.zero

/-- What a host's turn does with each line (30_encoding R95): a write, a read, a poll of a wait, a branch. The order
of the reads, the poll as one step, the condition and the empty script are the model's choices (logs 4 to 7). -/
def Obligations.HostLinesAct : Prop :=
  ∀ (s : State) (k : Slot) (v : Word) (c : Cond) (a b rest : Script), HostMoves s →
    (s.host.script = .wr k v rest →
      step s = .next { s with
        block := hostWrite s.block k v
        host := { s.host with script := rest }
        turns := s.turns.tail }) ∧
    (s.host.script = .rd k rest →
      step s = .next { s with
        host := { script := rest, reads := hostRead s.block k :: s.host.reads }
        turns := s.turns.tail }) ∧
    (s.host.script = .wait rest → s.block.status.busy = true →
      step s = .next { s with
        host := { s.host with reads := slotValue s.block 1 :: s.host.reads }
        turns := s.turns.tail }) ∧
    (s.host.script = .wait rest → s.block.status.busy = false →
      step s = .next { s with
        host := { script := rest, reads := slotValue s.block 1 :: s.host.reads }
        turns := s.turns.tail }) ∧
    (s.host.script = .ifThen c a b rest →
      step s = .next { s with
        host := { s.host with script := (if condHolds c s.host.reads then a else b).append rest }
        turns := s.turns.tail }) ∧
    (s.host.script = .done → step s = .next { s with turns := s.turns.tail })

/-! ### The commands -/

/-- The 22 hex digits (40_keycodec R110). -/
def Obligations.HexDigitsAreTheTwentyTwo : Prop :=
  ∀ c : Byte, isHex c = true ↔
    c ∈ [0x30, 0x31, 0x32, 0x33, 0x34, 0x35, 0x36, 0x37, 0x38, 0x39, 0x41, 0x42, 0x43, 0x44, 0x45, 0x46,
      0x61, 0x62, 0x63, 0x64, 0x65, 0x66]

/-- The value of a hex digit, the same in either case (40_keycodec R111). -/
def Obligations.HexDigitValues : Prop :=
  ∀ c : Byte,
    (0x30 ≤ c.toNat → c.toNat ≤ 0x39 → (nib c).toNat = c.toNat - 0x30) ∧
      (0x41 ≤ c.toNat → c.toNat ≤ 0x46 → (nib c).toNat = c.toNat - 0x37) ∧
      (0x61 ≤ c.toNat → c.toNat ≤ 0x66 → (nib c).toNat = c.toNat - 0x57)

/-- KEYDEC (40_keycodec R112): its word; a valid key string is decoded, big-endian pair of nibbles per byte; any other
destroys the key. In both cases nothing but KEY, KEYLEN and STATUS changes. -/
def Obligations.KeydecFollowsTheRule : Prop :=
  decode 0x00000001 = .ok .keydec ∧ ∀ s : State,
    (KeyStringValid s.block →
      ∃ key : Vector Byte 32,
        exec .keydec s = .next { s with block := { s.block with
          key := key
          keylen := 32
          status := doneStatus s.block.status 0 } } ∧
        ∀ j : Fin 32, ∃ hi lo : Nat,
          hexDigitValue s.block.keyhex[2 * j.val] = some hi ∧
            hexDigitValue s.block.keyhex[2 * j.val + 1] = some lo ∧
            key[j].toNat = 16 * hi + lo) ∧
    (¬KeyStringValid s.block →
      exec .keydec s = .next { s with block := { s.block with
        key := zeroBytes 32
        keylen := 0
        status := doneStatus s.block.status 1 } })

/-- `decode(encode_hex(bytes)) == bytes` for every key, whatever the case of each digit (40_keycodec R115 (b), (c)). -/
def Obligations.KeydecDecodesEncodedKeys : Prop :=
  ∀ (s : State) (key : Vector Byte 32) (upper : Vector Bool 64),
    s.block.hexlen = 64 → s.block.keyhex = encodeHex upper key →
      exec .keydec s = .next { s with block := { s.block with
        key := key
        keylen := 32
        status := doneStatus s.block.status 0 } }

/-- HMAC (41_hmac_sha1 R141): its word, its effect and its error. -/
def Obligations.HmacFollowsTheRule : Prop :=
  decode 0x00000002 = .ok .hmac ∧ ∀ s : State,
    (s.block.keylen = 32 →
      ∃ work : Work, exec .hmac s = .next { s with block := { s.block with
        digest := hmac8 s.block.key s.block.counter
        work := work
        status := doneStatus s.block.status 0 } }) ∧
    (s.block.keylen ≠ 32 →
      exec .hmac s = .next { s with block := { s.block with
        digest := zeroBytes 20
        status := doneStatus s.block.status 2 } })

/-- TRUNC (42_truncation R160 to R162, R164), its word, and its effect in numbers: it completes in every state, and
nothing but OFFSET, BINARY, CODE, DIGITS and STATUS changes. -/
def Obligations.TruncFollowsTheRule : Prop :=
  decode 0x00000003 = .ok .trunc ∧
  ∀ s : State, ∃ (o : BitVec 4) (n : BitVec 31) (c : BitVec 20) (d : Vector Byte 6),
    exec .trunc s = .next { s with block := { s.block with
      offset := o
      binary := n
      code := c
      digits := d
      status := doneStatus s.block.status 0 } } ∧
    o.toNat = s.block.digest[19].toNat % 16 ∧
    (∀ h : o.toNat + 3 < 20,
      n.toNat = (s.block.digest[o.toNat].toNat % 128) * 2 ^ 24 + s.block.digest[o.toNat + 1].toNat * 2 ^ 16 +
        s.block.digest[o.toNat + 2].toNat * 2 ^ 8 + s.block.digest[o.toNat + 3].toNat) ∧
    c.toNat = n.toNat % 1000000 ∧
    ∀ i : Fin 6, d[i].toNat = 0x30 + c.toNat / 10 ^ (5 - i.val) % 10

/-- HOTP (43_hotp_totp R180): its word, its effect and its error. -/
def Obligations.HotpFollowsTheRule : Prop :=
  decode 0x00000004 = .ok .hotp ∧ ∀ s : State,
    (s.block.keylen = 32 →
      ∃ work : Work, exec .hotp s = .next { s with block := { s.block with
        digest := hmac8 s.block.key s.block.counter
        offset := truncOffset (hmac8 s.block.key s.block.counter)
        binary := truncBinary (hmac8 s.block.key s.block.counter)
        code := otpCode (truncBinary (hmac8 s.block.key s.block.counter))
        digits := otpDigits (otpCode (truncBinary (hmac8 s.block.key s.block.counter)))
        work := work
        status := doneStatus s.block.status 0 } }) ∧
    (s.block.keylen ≠ 32 →
      exec .hotp s = .next { s with block := { s.block with
        digest := zeroBytes 20
        offset := 0
        binary := 0
        code := 0
        digits := zeroBytes 6
        status := doneStatus s.block.status 2 } })

/-- HOTP is HMAC followed by TRUNC when the key length is 32 (43_hotp_totp R180, corner case (a)). -/
def Obligations.HotpIsHmacThenTrunc : Prop :=
  ∀ s : State, s.block.keylen = 32 →
    ∃ t u : State, exec .hmac s = .next t ∧ exec .trunc t = .next u ∧ exec .hotp s = .next u

/-- TOTP (43_hotp_totp R182): its word; COUNTER is the time step in every case, and the rest is as HOTP's
rule says for it. -/
def Obligations.TotpFollowsTheRule : Prop :=
  decode 0x00000005 = .ok .totp ∧ ∀ s : State, ∃ counter : DWord, counter.toNat = s.block.now.toNat / 30 ∧
    (s.block.keylen = 32 →
      ∃ work : Work, exec .totp s = .next { s with block := { s.block with
        counter := counter
        digest := hmac8 s.block.key counter
        offset := truncOffset (hmac8 s.block.key counter)
        binary := truncBinary (hmac8 s.block.key counter)
        code := otpCode (truncBinary (hmac8 s.block.key counter))
        digits := otpDigits (otpCode (truncBinary (hmac8 s.block.key counter)))
        work := work
        status := doneStatus s.block.status 0 } }) ∧
    (s.block.keylen ≠ 32 →
      exec .totp s = .next { s with block := { s.block with
        counter := counter
        digest := zeroBytes 20
        offset := 0
        binary := 0
        code := 0
        digits := zeroBytes 6
        status := doneStatus s.block.status 2 } })

/-- TOTP derives the counter, stores it, success or not, and then does exactly what HOTP does (43_hotp_totp R182). -/
def Obligations.TotpIsCounterThenHotp : Prop :=
  ∀ s : State, ∃ (counter : DWord) (t : State),
    counter.toNat = s.block.now.toNat / 30 ∧ t.block.counter = counter ∧ t.block.now = s.block.now ∧
      exec .totp s = .next t ∧
      exec .hotp { s with block := { s.block with counter := counter } } = .next t

/-- Two times in the same 30-second window give the same outcome (43_hotp_totp R182, corner case (b)). -/
def Obligations.TotpIsConstantInAWindow : Prop :=
  ∀ (s : State) (now : DWord), now.toNat / 30 = s.block.now.toNat / 30 →
    ∃ t : State, exec .totp s = .next t ∧
      exec .totp { s with block := { s.block with now := now } } =
        .next { t with block := { t.block with now := now } }

/-- The time step is the quotient by 30, and it fits (43_hotp_totp R181). -/
def Obligations.TimeStepIsTheQuotient : Prop :=
  ∀ now : DWord,
    (totpCounter now).toNat = now.toNat / 30 ∧ (totpCounter now).toNat ≤ 614891469123651720

/-- ZEROIZE (44_system R200): its word; every data register and the working variables at zero, HZD kept, nothing else
changed. -/
def Obligations.ZeroizeFollowsTheRule : Prop :=
  decode 0x00000006 = .ok .zeroize ∧ ∀ s : State,
    exec .zeroize s = .next { s with block := { s.block with
      hexlen := 0
      keylen := 0
      counter := 0
      now := 0
      keyhex := zeroBytes 64
      key := zeroBytes 32
      digest := zeroBytes 20
      offset := 0
      binary := 0
      code := 0
      digits := zeroBytes 6
      work := Work.zero
      status := doneStatus s.block.status 0 } }

/-- After ZEROIZE every slot but STATUS reads 0, the key commands fail, and ZEROIZE again changes nothing (44_system
R200, corner cases (a) to (c)). -/
def Obligations.ZeroizeLeavesNoKey : Prop :=
  ∀ s : State, ∃ t : State, exec .zeroize s = .next t ∧
    (∀ k : Slot, k ≠ 1 → hostRead t.block k = 0) ∧
    exec .zeroize t = .next t ∧
    (∃ u, exec .keydec t = .next u ∧ u.block.status.err = 1) ∧
    (∃ u, exec .hmac t = .next u ∧ u.block.status.err = 2) ∧
    (∃ u, exec .hotp t = .next u ∧ u.block.status.err = 2) ∧
    (∃ u, exec .totp t = .next u ∧ u.block.status.err = 2)

/-- Every command completes in every state; it changes no slot but its outputs and STATUS, and neither HZD, CW, the
host's side nor the turns; KEYDEC and TRUNC leave the working variables too (30_encoding R92, R97). -/
def Obligations.CommandsWriteOnlyTheirOutputs : Prop :=
  ∀ (i : Instr) (s : State), ∃ t : State, exec i s = .next t ∧
    (∀ k : Slot, k ≠ 1 → writesSlot i k = false → slotValue t.block k = slotValue s.block k) ∧
    t.block.status.busy = false ∧ t.block.status.done = true ∧ t.block.status.hzd = s.block.status.hzd ∧
    t.block.cw = s.block.cw ∧ t.host = s.host ∧ t.turns = s.turns ∧
    (i = .keydec ∨ i = .trunc → t.block.work = s.block.work)

/-- What a command leaves in its outputs and in ERR depends on its operands alone (30_encoding R92, 43_hotp_totp
R183 (a), (e)). -/
def Obligations.CommandsDependOnlyOnTheirOperands : Prop :=
  ∀ s t : State,
    (s.block.hexlen = t.block.hexlen → s.block.keyhex = t.block.keyhex →
      ∃ s' t', exec .keydec s = .next s' ∧ exec .keydec t = .next t' ∧ s'.block.key = t'.block.key ∧
        s'.block.keylen = t'.block.keylen ∧ s'.block.status.err = t'.block.status.err) ∧
    (s.block.keylen = t.block.keylen → s.block.key = t.block.key → s.block.counter = t.block.counter →
      ∃ s' t', exec .hmac s = .next s' ∧ exec .hmac t = .next t' ∧ s'.block.digest = t'.block.digest ∧
        s'.block.status.err = t'.block.status.err) ∧
    (s.block.digest = t.block.digest →
      ∃ s' t', exec .trunc s = .next s' ∧ exec .trunc t = .next t' ∧ SameCode s'.block t'.block ∧
        s'.block.status.err = t'.block.status.err) ∧
    (s.block.keylen = t.block.keylen → s.block.key = t.block.key → s.block.counter = t.block.counter →
      ∃ s' t', exec .hotp s = .next s' ∧ exec .hotp t = .next t' ∧ s'.block.digest = t'.block.digest ∧
        SameCode s'.block t'.block ∧ s'.block.status.err = t'.block.status.err) ∧
    (s.block.keylen = t.block.keylen → s.block.key = t.block.key → s.block.now = t.block.now →
      ∃ s' t', exec .totp s = .next s' ∧ exec .totp t = .next t' ∧ s'.block.counter = t'.block.counter ∧
        s'.block.digest = t'.block.digest ∧ SameCode s'.block t'.block ∧
        s'.block.status.err = t'.block.status.err)

/-- Which error a command raises and when (60_exceptions R211, R217). -/
def Obligations.ErrorsAreRaisedExactlyWhenListed : Prop :=
  ∀ (i : Instr) (s : State), ∃ t : State, exec i s = .next t ∧
    t.block.status.err =
      match i with
      | .keydec => if KeyStringValid s.block then 0 else 1
      | .hmac => if s.block.keylen = 32 then 0 else 2
      | .hotp => if s.block.keylen = 32 then 0 else 2
      | .totp => if s.block.keylen = 32 then 0 else 2
      | .trunc => 0
      | .zeroize => 0

/-! ### Truncation -/

/-- The bounds of truncation (42_truncation R165). -/
def Obligations.TruncationBounds : Prop :=
  (∀ d : Vector Byte 20,
    (truncOffset d).toNat ≤ 15 ∧ (truncOffset d).toNat + 3 ≤ 18 ∧ (truncBinary d).toNat ≤ 2147483647 ∧
      (otpCode (truncBinary d)).toNat ≤ 999999) ∧
    (∀ n : BitVec 20, ∀ i : Fin 6, 0x30 ≤ (otpDigits n)[i].toNat ∧ (otpDigits n)[i].toNat ≤ 0x39) ∧
    ∀ n : BitVec 31, n.toNat = 2147483647 → (otpCode n).toNat = 483647

/-- Read as a decimal number, the six digits are the code (42_truncation R163). -/
def Obligations.DigitsSpellTheCode : Prop :=
  ∀ n : BitVec 20, n.toNat ≤ 999999 →
    ((otpDigits n)[0].toNat - 0x30) * 100000 + ((otpDigits n)[1].toNat - 0x30) * 10000 +
      ((otpDigits n)[2].toNat - 0x30) * 1000 + ((otpDigits n)[3].toNat - 0x30) * 100 +
      ((otpDigits n)[4].toNat - 0x30) * 10 + ((otpDigits n)[5].toNat - 0x30) = n.toNat

/-- The high nibble of the last byte, the top bit of the first window byte and every byte outside the window have no
effect on the code (42_truncation R160, R165 (a), R166). -/
def Obligations.TruncationReadsOnlyItsWindow : Prop :=
  ∀ d e : Vector Byte 20, d[19].toNat % 16 = e[19].toNat % 16 →
    (∀ i : Fin 20, i.val = d[19].toNat % 16 → d[i].toNat % 128 = e[i].toNat % 128) →
    (∀ i : Fin 20, d[19].toNat % 16 < i.val → i.val ≤ d[19].toNat % 16 + 3 → d[i] = e[i]) →
      truncOffset d = truncOffset e ∧ truncBinary d = truncBinary e

/-! ### SHA-1 and HMAC -/

/-- `ROTL` as arithmetic: the bits shifted out come back at the bottom (00_scope R7). -/
def Obligations.RotationAsArithmetic : Prop :=
  ∀ (w : Word) (n : Nat), 0 < n → n < 32 →
    (rotl w n).toNat = w.toNat * 2 ^ n % 2 ^ 32 + w.toNat / 2 ^ (32 - n)

/-- The round functions bit by bit (choice, parity, majority, parity), and the constants (41_hmac_sha1 R132). -/
def Obligations.RoundFunctionsBitByBit : Prop :=
  ∀ (t : Nat) (b c d : Word), t < 80 →
    (t < 20 → roundK t = 0x5A827999 ∧
      ∀ i < 32, (roundF t b c d).getLsbD i = if b.getLsbD i then c.getLsbD i else d.getLsbD i) ∧
    (20 ≤ t → t < 40 → roundK t = 0x6ED9EBA1 ∧
      ∀ i < 32, (roundF t b c d).getLsbD i = xor (xor (b.getLsbD i) (c.getLsbD i)) (d.getLsbD i)) ∧
    (40 ≤ t → t < 60 → roundK t = 0x8F1BBCDC ∧
      ∀ i < 32, (roundF t b c d).getLsbD i =
        decide (2 ≤ (b.getLsbD i).toNat + (c.getLsbD i).toNat + (d.getLsbD i).toNat)) ∧
    (60 ≤ t → roundK t = 0xCA62C1D6 ∧
      ∀ i < 32, (roundF t b c d).getLsbD i = xor (xor (b.getLsbD i) (c.getLsbD i)) (d.getLsbD i))

/-- The message schedule (41_hmac_sha1 R133). -/
def Obligations.ScheduleFollowsTheRecurrence : Prop :=
  ∀ (blk : Vector Byte 64) (t : Nat) (h : t < 80),
    (∀ h16 : t < 16,
      (schedule blk)[t].toNat = bytesValue blk[4 * t] blk[4 * t + 1] blk[4 * t + 2] blk[4 * t + 3]) ∧
    (∀ h16 : 16 ≤ t,
      (schedule blk)[t] =
        rotl ((schedule blk)[t - 3] ^^^ (schedule blk)[t - 8] ^^^ (schedule blk)[t - 14] ^^^ (schedule blk)[t - 16]) 1)

/-- The compression function is 80 rounds on the five variables and the final addition (41_hmac_sha1 R134). -/
def Obligations.CompressionIsEightyRounds : Prop :=
  ∀ (h : Words5) (blk : Vector Byte 64), ∃ v : Nat → Words5,
    v 0 = h ∧
    (∀ (t : Nat) (ht : t < 80), v (t + 1) =
      { a := rotl (v t).a 5 + roundF t (v t).b (v t).c (v t).d + (v t).e + roundK t + (schedule blk)[t]
        b := (v t).a
        c := rotl (v t).b 30
        d := (v t).c
        e := (v t).d }) ∧
    compress h blk =
      { a := h.a + (v 80).a, b := h.b + (v 80).b, c := h.c + (v 80).c, d := h.d + (v 80).d, e := h.e + (v 80).e }

/-- The counter as eight big-endian bytes (41_hmac_sha1 R139). -/
def Obligations.CounterBytesAreBigEndian : Prop :=
  ∀ c : DWord,
    (∀ i : Fin 8, (be64 c)[i].toNat = c.toNat / 2 ^ (8 * (7 - i.val)) % 256) ∧
      bytesValue (be64 c)[0] (be64 c)[1] (be64 c)[2] (be64 c)[3] = (hiWord c).toNat ∧
      bytesValue (be64 c)[4] (be64 c)[5] (be64 c)[6] (be64 c)[7] = (loWord c).toNat

/-- The blocks HMAC8 compresses, byte by byte (41_hmac_sha1 R135 to R138). -/
def Obligations.HmacBlocksByteByByte : Prop :=
  ∀ (key : Vector Byte 32) (m : Vector Byte 8) (inner : Vector Byte 20) (pad : Byte),
    (∀ i : Fin 32, (paddedKey key)[i.val] = key[i]) ∧
    (∀ i : Fin 64, 32 ≤ i.val → (paddedKey key)[i] = 0) ∧
    (∀ i : Fin 32, (padBlock (paddedKey key) pad)[i.val] = key[i] ^^^ pad) ∧
    (∀ i : Fin 64, 32 ≤ i.val → (padBlock (paddedKey key) pad)[i] = pad) ∧
    (∀ i : Fin 8, (secondInner m)[i.val] = m[i]) ∧ (secondInner m)[8] = 0x80 ∧
    (∀ i : Fin 64, 9 ≤ i.val → i.val < 62 → (secondInner m)[i] = 0) ∧
    (secondInner m)[62] = 0x02 ∧ (secondInner m)[63] = 0x40 ∧
    (∀ i : Fin 20, (secondOuter inner)[i.val] = inner[i]) ∧ (secondOuter inner)[20] = 0x80 ∧
    (∀ i : Fin 64, 21 ≤ i.val → i.val < 62 → (secondOuter inner)[i] = 0) ∧
    (secondOuter inner)[62] = 0x02 ∧ (secondOuter inner)[63] = 0xA0

/-- The initial chaining value, and the four compressions of HMAC8: S1 to S4, with INNER the bytes of S2, and DIGESTk
the word S4.k (41_hmac_sha1 R131, R140). -/
def Obligations.HmacIsFourCompressions : Prop :=
  sha1Iv = { a := 0x67452301, b := 0xEFCDAB89, c := 0x98BADCFE, d := 0x10325476, e := 0xC3D2E1F0 } ∧
  ∀ (key : Vector Byte 32) (counter : DWord), ∃ (s1 s2 s3 s4 : Words5) (inner : Vector Byte 20),
    s1 = compress sha1Iv (padBlock (paddedKey key) 0x36) ∧
    s2 = compress s1 (secondInner (be64 counter)) ∧
    Words5OfBytes inner s2 ∧
    s3 = compress sha1Iv (padBlock (paddedKey key) 0x5C) ∧
    s4 = compress s3 (secondOuter inner) ∧
    Words5OfBytes (hmac8 key counter) s4

/-- HMAC8 is exactly HMAC-SHA1 of the counter's bytes under the key, as defined for any message (41_hmac_sha1
R143). -/
def Obligations.EngineIsHmacSha1 : Prop :=
  ∀ (key : Vector Byte 32) (counter : DWord),
    hmac8 key counter = hmacSha1 key.toList (be64 counter).toList

/-- A shorter key extended with zero bytes on the right to 32 gives the digest the shorter key gives under general
HMAC-SHA1 (41_hmac_sha1 R144). -/
def Obligations.ShortKeysPadOnTheRight : Prop :=
  ∀ (k : List Byte) (counter : DWord), k.length ≤ 32 →
    hmac8 (Vector.ofFn fun i => k.getD i.val 0) counter = hmacSha1 k (be64 counter).toList

/-! ### The whole machine -/

/-- The invariants of 10_state R42 hold after reset, with the model's own: CODE and DIGITS belong to BINARY. -/
def Obligations.InvariantHoldsAtReset : Prop := BlockInv State.reset.block

/-- Every step, of any agent, from any state that meets the invariants, gives one that meets them (10_state R42; that
CODE and DIGITS belong to BINARY is derived from the command rules). -/
def Obligations.InvariantIsKept : Prop :=
  ∀ s t : State, BlockInv s.block → step s = .next t → BlockInv t.block

/-- HZD is set by every host write while busy and by nothing else, cleared by Reset and by nothing else (10_state
R37). -/
def Obligations.HazardFlagIsSticky : Prop :=
  ∀ s : State, ∃ t : State, step s = .next t ∧
    (∀ (k : Slot) (v : Word) (rest : Script), HostMoves s → s.block.status.busy = true →
      s.host.script = .wr k v rest → t.block.status.hzd = true) ∧
    (s.turns.head? = some .environment → t.block.status.hzd = false) ∧
    (s.block.status.hzd = true → t.block.status.hzd = false → s.turns.head? = some .environment) ∧
    (s.block.status.hzd = false → t.block.status.hzd = true →
      HostMoves s ∧ s.block.status.busy = true ∧ ∃ k v rest, s.host.script = .wr k v rest)

/-- BUSY rises only when an idle host write to CMD is accepted, falls only by Complete or Reset, and while the host
moves a held command stays the one that was accepted (10_state R34, 20_memory R72). -/
def Obligations.BusyFollowsAcceptanceAndCompletion : Prop :=
  ∀ s : State, ∃ t : State, step s = .next t ∧
    (s.block.status.busy = false → t.block.status.busy = true →
      HostMoves s ∧ ∃ v rest, s.host.script = .wr 0 v rest ∧ t.block.cw = v ∧ t.block.status.done = false ∧
        t.block.status.err = 0) ∧
    (s.block.status.busy = true → t.block.status.busy = false →
      EngineMoves s ∧ t.block.status.done = true ∨ s.turns.head? = some .environment) ∧
    (s.block.status.busy = true → HostMoves s →
      t.block = { s.block with status := t.block.status } ∧ t.block.status.busy = true)

/-- DONE and ERR change only when a command is accepted (both cleared), when one completes (DONE set), and at Reset
(10_state R35, R36, 60_exceptions R219). -/
def Obligations.DoneAndErrChangeWithCommandsOnly : Prop :=
  ∀ s : State, ∃ t : State, step s = .next t ∧
    (t.block.status.done ≠ s.block.status.done ∨ t.block.status.err ≠ s.block.status.err →
      s.turns.head? = some .environment ∨
      (EngineMoves s ∧ s.block.status.busy = true ∧ t.block.status.done = true) ∨
      (HostMoves s ∧ s.block.status.busy = false ∧ t.block.status.done = false ∧ t.block.status.err = 0 ∧
        ∃ v rest, s.host.script = .wr 0 v rest))

/-- KEY changes only by Reset, by a completing KEYDEC or ZEROIZE, or by an idle host write to one of its slots
(10_state R23). -/
def Obligations.KeyIsNeverChangedByItsUsers : Prop :=
  ∀ s : State, ∃ t : State, step s = .next t ∧
    (t.block.key ≠ s.block.key →
      s.turns.head? = some .environment ∨
      (EngineMoves s ∧ s.block.status.busy = true ∧
        (decode s.block.cw = .ok .keydec ∨ decode s.block.cw = .ok .zeroize)) ∨
      (HostMoves s ∧ s.block.status.busy = false ∧
        ∃ k v rest, s.host.script = .wr k v rest ∧ 24 ≤ k.toNat ∧ k.toNat ≤ 31))

/-- The protocol, move by move, for every host (70_reset R244): as long as the host accesses no slot but STATUS while a
poll is owed, a command is held only while one is, no step sets HZD, and what the host reads from any slot is that
slot's value, never the zero of a busy block. -/
def Obligations.ProtocolIsSafe : Prop :=
  (∀ (owed : Bool) (s t : State), PollInv owed s → HostKeepsPolling owed s → step s = .next t →
    PollInv (pollOwedAfter owed s) t ∧ (t.block.status.hzd = true → s.block.status.hzd = true)) ∧
  ∀ (owed : Bool) (s : State) (k : Slot) (rest : Script), PollInv owed s → HostKeepsPolling owed s → HostMoves s →
    s.host.script = .rd k rest →
      step s = .next { s with
        host := { script := rest, reads := slotValue s.block k :: s.host.reads }
        turns := s.turns.tail }

/-- Hidden state cannot be observed: from two states that differ only in it, a step gives two that differ only in it
(10_state R39; 93 U15). -/
def Obligations.HiddenStateIsUnobservable : Prop :=
  ∀ s t : State, SameButHidden s.block t.block → s.host = t.host → s.turns = t.turns →
    ∃ s' t' : State, step s = .next s' ∧ step t = .next t' ∧ SameButHidden s'.block t'.block ∧
      s'.host = t'.host ∧ s'.turns = t'.turns

/-- The machine never halts, locks up or refuses: every state has a next one (60_exceptions R230). -/
def Obligations.MachineNeverStops : Prop :=
  ∀ s : State, ∃ t : State, step s = .next t

/-- Every accepted command completes unless a Reset intervenes, at the latest once the turns placed are used up,
when the engine moves by the model's choice (70_reset R251; log 2). -/
def Obligations.EveryAcceptedCommandCompletes : Prop :=
  ∀ s : State, s.block.status.busy = true → NoReset s.turns →
    ∃ (n : Nat) (t : State), n ≤ s.turns.length + 1 ∧ Sys2Proof.core.run n s = .next t ∧
      t.block.status.busy = false ∧ t.block.status.done = true

/-- For a script that follows every CMD by WAIT the block's end state does not depend on where the schedule places Complete:
two runs that differ only in the turns placed end with the same block (30_encoding R98). The WAIT of a command may
stand inside a branch of an IF or after its END (`waitOwed`, log 16). -/
def Obligations.EndStateIgnoresTheSchedule : Prop :=
  ∀ (s t : State) (m n : Nat) (s' t' : State),
    ProtocolInv s → NoReset s.turns → NoReset t.turns → s.block = t.block → s.host = t.host →
    Sys2Proof.core.run m s = .next s' → Sys2Proof.core.run n t = .next t' → Finished s' → Finished t' →
      s'.block = t'.block

/-- The load lines fill their registers: LDKEY the key and KEYLEN, LDHEX the string (zero bytes after it, cut at 64)
and its length, LDDIGEST the digest (30_encoding R95). With no turn placed the host moves, by the model's choice
(log 2); HEXLEN of a string of 2^32 characters or more, its length modulo 2^32, is the model's choice too (log 15). -/
def Obligations.LoadLinesFillTheirRegisters : Prop :=
  ∀ (s : State) (rest : Script), s.block.status.busy = false → s.turns = [] →
    (∀ key : Vector Byte 32, s.host.script = lineLdkey key rest →
      Sys2Proof.core.run 9 s = .next { s with
        block := { s.block with key := key, keylen := 32 }
        host := { s.host with script := rest } }) ∧
    (∀ text : List Byte, s.host.script = lineLdhex text rest →
      Sys2Proof.core.run 17 s = .next { s with
        block := { s.block with
          keyhex := Vector.ofFn fun i => text.getD i.val 0
          hexlen := BitVec.ofNat 32 text.length }
        host := { s.host with script := rest } }) ∧
    ∀ digest : Vector Byte 20, s.host.script = lineLddigest digest rest →
      Sys2Proof.core.run 5 s = .next { s with
        block := { s.block with digest := digest }
        host := { s.host with script := rest } }

/-- A script that follows every CMD by WAIT goes on doing so, keeps the protocol of 70_reset R244, never sets HZD, and
what it reads from any slot is that slot's value (30_encoding R98). Which scripts those are, along the branches of an
IF, is `waitOwed`, the model's choice (log 16). -/
def Obligations.WaitingScriptsKeepTheProtocol : Prop :=
  (∀ s t : State, ProtocolInv s → step s = .next t →
    ProtocolInv t ∧ (t.block.status.hzd = true → s.block.status.hzd = true)) ∧
  (∀ s : State, ProtocolInv s → HostKeepsPolling s.block.status.busy s) ∧
  ∀ (s : State) (k : Slot) (rest : Script), ProtocolInv s → HostMoves s → s.host.script = .rd k rest →
    step s = .next { s with
      host := { script := rest, reads := slotValue s.block k :: s.host.reads }
      turns := s.turns.tail }
end

