-- ==== Sys2Proof/Laws/Bytes.lean ====
section
/-! SUPPORT. Byte order: taking a word apart and putting it together are inverse, and a word written into a byte
string is read back there and nowhere else. -/

namespace Sys2Proof.Machine

/-- Taking a word apart and putting it together. -/
theorem be32_wordByte (w : Word) : be32 (wordByte w 0) (wordByte w 1) (wordByte w 2) (wordByte w 3) = w := by
  apply BitVec.eq_of_getLsbD_eq
  intro i hi
  simp only [be32, wordByte, BitVec.getLsbD_or, BitVec.getLsbD_shiftLeft, BitVec.getLsbD_setWidth, BitVec.getLsbD_ushiftRight, hi]
  interval_cases i <;> simp

/-- Putting four bytes together and taking the word apart. -/
theorem wordByte_be32 (b0 b1 b2 b3 : Byte) :
    wordByte (be32 b0 b1 b2 b3) 0 = b0 ∧ wordByte (be32 b0 b1 b2 b3) 1 = b1 ∧
      wordByte (be32 b0 b1 b2 b3) 2 = b2 ∧ wordByte (be32 b0 b1 b2 b3) 3 = b3 := by
  refine ⟨?_, ?_, ?_, ?_⟩ <;> apply BitVec.eq_of_getLsbD_eq <;> intro i hi <;>
    simp only [be32, wordByte, BitVec.getLsbD_or, BitVec.getLsbD_shiftLeft, BitVec.getLsbD_setWidth,
      BitVec.getLsbD_ushiftRight, hi] <;> interval_cases i <;> simp [BitVec.getLsbD_of_ge]

/-- Byte `j` of a byte string with word `i` replaced. -/
theorem getElem_setWordAt {n : Nat} (s : Vector Byte n) (i : Nat) (w : Word) (h : 4 * i + 3 < n) (j : Nat)
    (hj : j < n) : (setWordAt s i w h)[j] = if j / 4 = i then wordByte w (j % 4) else s[j] := by
  simp only [setWordAt, Vector.getElem_set]
  split_ifs with h3 h2 h1 h0 hd hd <;> first | omega | rfl | (congr 1; omega)

theorem wordAt_setWordAt_same {n : Nat} (s : Vector Byte n) (i : Nat) (w : Word) (h : 4 * i + 3 < n) :
    wordAt (setWordAt s i w h) i h = w := by
  have e : ∀ j, j < 4 → (4 * i + j) / 4 = i ∧ (4 * i + j) % 4 = j := fun j hj => by omega
  have e0 := e 0 (by omega)
  simp only [Nat.add_zero] at e0
  simp only [wordAt, getElem_setWordAt, e0, e 1 (by omega), e 2 (by omega), e 3 (by omega), if_true,
    be32_wordByte]

theorem wordAt_setWordAt_other {n : Nat} (s : Vector Byte n) (i j : Nat) (w : Word) (h : 4 * i + 3 < n)
    (hj : 4 * j + 3 < n) (hne : j ≠ i) : wordAt (setWordAt s i w h) j hj = wordAt s j hj := by
  have e : ∀ k, k < 4 → (4 * j + k) / 4 ≠ i := fun k hk => by omega
  have e0 := e 0 (by omega)
  simp only [Nat.add_zero] at e0
  simp only [wordAt, getElem_setWordAt, e0, e 1 (by omega), e 2 (by omega), e 3 (by omega), if_false]

theorem joinWords_split (v : DWord) : joinWords (hiWord v) (loWord v) = v := by
  apply BitVec.eq_of_getLsbD_eq
  intro i hi
  simp only [joinWords, hiWord, loWord, BitVec.getLsbD_or, BitVec.getLsbD_shiftLeft, BitVec.getLsbD_setWidth, BitVec.getLsbD_ushiftRight]
  by_cases h : i < 32
  · simp [h,hi]
  · simp [h,hi,show i-32 < 32 by omega, show 32 + (i - 32) = i by omega, show i - 32 < 64 by omega]
@[simp] theorem hiWord_joinWords (a b : Word) : hiWord (joinWords a b) = a := by
  apply BitVec.eq_of_getLsbD_eq
  intro i hi
  simp [joinWords, hiWord, hi, BitVec.getLsbD_of_ge, show 32 + i < 64 by omega]
@[simp] theorem loWord_joinWords (a b : Word) : loWord (joinWords a b) = b := by
  apply BitVec.eq_of_getLsbD_eq
  intro i hi
  simp [joinWords, loWord, hi]

@[simp] theorem hiWord_setHiWord (v : DWord) (w : Word) : hiWord (setHiWord v w) = w := hiWord_joinWords _ _

@[simp] theorem loWord_setHiWord (v : DWord) (w : Word) : loWord (setHiWord v w) = loWord v := loWord_joinWords _ _

@[simp] theorem loWord_setLoWord (v : DWord) (w : Word) : loWord (setLoWord v w) = w := loWord_joinWords _ _

@[simp] theorem hiWord_setLoWord (v : DWord) (w : Word) : hiWord (setLoWord v w) = hiWord v := hiWord_joinWords _ _

@[simp] theorem getElem_zeroBytes (n i : Nat) (h : i < n) : (zeroBytes n)[i] = 0 := by
  simp [zeroBytes]

end Sys2Proof.Machine
end

