-- ==== Sys2Proof/Laws/State.lean ====
section
/-! SUPPORT. One lemma per field per update, each true by rfl, so that no proof unfolds a record update. -/

namespace Sys2Proof.Machine

/-! ### `acceptCommand` -/

@[simp] theorem acceptCommand_status (b : Block) (v : Word) : (acceptCommand b v).status = statusAccept b.status := rfl
@[simp] theorem acceptCommand_hexlen (b : Block) (v : Word) : (acceptCommand b v).hexlen = b.hexlen := rfl
@[simp] theorem acceptCommand_keylen (b : Block) (v : Word) : (acceptCommand b v).keylen = b.keylen := rfl
@[simp] theorem acceptCommand_counter (b : Block) (v : Word) : (acceptCommand b v).counter = b.counter := rfl
@[simp] theorem acceptCommand_now (b : Block) (v : Word) : (acceptCommand b v).now = b.now := rfl
@[simp] theorem acceptCommand_keyhex (b : Block) (v : Word) : (acceptCommand b v).keyhex = b.keyhex := rfl
@[simp] theorem acceptCommand_key (b : Block) (v : Word) : (acceptCommand b v).key = b.key := rfl
@[simp] theorem acceptCommand_digest (b : Block) (v : Word) : (acceptCommand b v).digest = b.digest := rfl
@[simp] theorem acceptCommand_offset (b : Block) (v : Word) : (acceptCommand b v).offset = b.offset := rfl
@[simp] theorem acceptCommand_binary (b : Block) (v : Word) : (acceptCommand b v).binary = b.binary := rfl
@[simp] theorem acceptCommand_code (b : Block) (v : Word) : (acceptCommand b v).code = b.code := rfl
@[simp] theorem acceptCommand_digits (b : Block) (v : Word) : (acceptCommand b v).digits = b.digits := rfl
@[simp] theorem acceptCommand_cw (b : Block) (v : Word) : (acceptCommand b v).cw = v := rfl
@[simp] theorem acceptCommand_work (b : Block) (v : Word) : (acceptCommand b v).work = b.work := rfl

/-! ### `clearCode` -/

@[simp] theorem clearCode_status (b : Block) : (clearCode b).status = b.status := rfl
@[simp] theorem clearCode_hexlen (b : Block) : (clearCode b).hexlen = b.hexlen := rfl
@[simp] theorem clearCode_keylen (b : Block) : (clearCode b).keylen = b.keylen := rfl
@[simp] theorem clearCode_counter (b : Block) : (clearCode b).counter = b.counter := rfl
@[simp] theorem clearCode_now (b : Block) : (clearCode b).now = b.now := rfl
@[simp] theorem clearCode_keyhex (b : Block) : (clearCode b).keyhex = b.keyhex := rfl
@[simp] theorem clearCode_key (b : Block) : (clearCode b).key = b.key := rfl
@[simp] theorem clearCode_digest (b : Block) : (clearCode b).digest = b.digest := rfl
@[simp] theorem clearCode_offset (b : Block) : (clearCode b).offset = 0 := rfl
@[simp] theorem clearCode_binary (b : Block) : (clearCode b).binary = 0 := rfl
@[simp] theorem clearCode_code (b : Block) : (clearCode b).code = 0 := rfl
@[simp] theorem clearCode_digits (b : Block) : (clearCode b).digits = zeroBytes 6 := rfl
@[simp] theorem clearCode_cw (b : Block) : (clearCode b).cw = b.cw := rfl
@[simp] theorem clearCode_work (b : Block) : (clearCode b).work = b.work := rfl

/-! ### `truncate` -/

@[simp] theorem truncate_status (b : Block) : (truncate b).status = b.status := rfl
@[simp] theorem truncate_hexlen (b : Block) : (truncate b).hexlen = b.hexlen := rfl
@[simp] theorem truncate_keylen (b : Block) : (truncate b).keylen = b.keylen := rfl
@[simp] theorem truncate_counter (b : Block) : (truncate b).counter = b.counter := rfl
@[simp] theorem truncate_now (b : Block) : (truncate b).now = b.now := rfl
@[simp] theorem truncate_keyhex (b : Block) : (truncate b).keyhex = b.keyhex := rfl
@[simp] theorem truncate_key (b : Block) : (truncate b).key = b.key := rfl
@[simp] theorem truncate_digest (b : Block) : (truncate b).digest = b.digest := rfl
@[simp] theorem truncate_offset (b : Block) : (truncate b).offset = truncOffset b.digest := rfl
@[simp] theorem truncate_binary (b : Block) : (truncate b).binary = truncBinary b.digest := rfl
@[simp] theorem truncate_code (b : Block) : (truncate b).code = otpCode (truncBinary b.digest) := rfl
@[simp] theorem truncate_digits (b : Block) : (truncate b).digits = otpDigits (otpCode (truncBinary b.digest)) := rfl
@[simp] theorem truncate_cw (b : Block) : (truncate b).cw = b.cw := rfl
@[simp] theorem truncate_work (b : Block) : (truncate b).work = b.work := rfl

/-! ### `computeDigest` -/

@[simp] theorem computeDigest_status (b : Block) : (computeDigest b).status = b.status := rfl
@[simp] theorem computeDigest_hexlen (b : Block) : (computeDigest b).hexlen = b.hexlen := rfl
@[simp] theorem computeDigest_keylen (b : Block) : (computeDigest b).keylen = b.keylen := rfl
@[simp] theorem computeDigest_counter (b : Block) : (computeDigest b).counter = b.counter := rfl
@[simp] theorem computeDigest_now (b : Block) : (computeDigest b).now = b.now := rfl
@[simp] theorem computeDigest_keyhex (b : Block) : (computeDigest b).keyhex = b.keyhex := rfl
@[simp] theorem computeDigest_key (b : Block) : (computeDigest b).key = b.key := rfl
@[simp] theorem computeDigest_digest (b : Block) : (computeDigest b).digest = hmac8 b.key b.counter := rfl
@[simp] theorem computeDigest_offset (b : Block) : (computeDigest b).offset = b.offset := rfl
@[simp] theorem computeDigest_binary (b : Block) : (computeDigest b).binary = b.binary := rfl
@[simp] theorem computeDigest_code (b : Block) : (computeDigest b).code = b.code := rfl
@[simp] theorem computeDigest_digits (b : Block) : (computeDigest b).digits = b.digits := rfl
@[simp] theorem computeDigest_cw (b : Block) : (computeDigest b).cw = b.cw := rfl
@[simp] theorem computeDigest_work (b : Block) : (computeDigest b).work = hmacWork b.key b.counter := rfl

/-! ### `setKey` -/

@[simp] theorem setKey_status (b : Block) (k : Vector Byte 32) (n : Word) : (setKey b k n).status = b.status := rfl
@[simp] theorem setKey_hexlen (b : Block) (k : Vector Byte 32) (n : Word) : (setKey b k n).hexlen = b.hexlen := rfl
@[simp] theorem setKey_keylen (b : Block) (k : Vector Byte 32) (n : Word) : (setKey b k n).keylen = n := rfl
@[simp] theorem setKey_counter (b : Block) (k : Vector Byte 32) (n : Word) : (setKey b k n).counter = b.counter := rfl
@[simp] theorem setKey_now (b : Block) (k : Vector Byte 32) (n : Word) : (setKey b k n).now = b.now := rfl
@[simp] theorem setKey_keyhex (b : Block) (k : Vector Byte 32) (n : Word) : (setKey b k n).keyhex = b.keyhex := rfl
@[simp] theorem setKey_key (b : Block) (k : Vector Byte 32) (n : Word) : (setKey b k n).key = k := rfl
@[simp] theorem setKey_digest (b : Block) (k : Vector Byte 32) (n : Word) : (setKey b k n).digest = b.digest := rfl
@[simp] theorem setKey_offset (b : Block) (k : Vector Byte 32) (n : Word) : (setKey b k n).offset = b.offset := rfl
@[simp] theorem setKey_binary (b : Block) (k : Vector Byte 32) (n : Word) : (setKey b k n).binary = b.binary := rfl
@[simp] theorem setKey_code (b : Block) (k : Vector Byte 32) (n : Word) : (setKey b k n).code = b.code := rfl
@[simp] theorem setKey_digits (b : Block) (k : Vector Byte 32) (n : Word) : (setKey b k n).digits = b.digits := rfl
@[simp] theorem setKey_cw (b : Block) (k : Vector Byte 32) (n : Word) : (setKey b k n).cw = b.cw := rfl
@[simp] theorem setKey_work (b : Block) (k : Vector Byte 32) (n : Word) : (setKey b k n).work = b.work := rfl

/-! ### `clearDigest` -/

@[simp] theorem clearDigest_status (b : Block) : (clearDigest b).status = b.status := rfl
@[simp] theorem clearDigest_hexlen (b : Block) : (clearDigest b).hexlen = b.hexlen := rfl
@[simp] theorem clearDigest_keylen (b : Block) : (clearDigest b).keylen = b.keylen := rfl
@[simp] theorem clearDigest_counter (b : Block) : (clearDigest b).counter = b.counter := rfl
@[simp] theorem clearDigest_now (b : Block) : (clearDigest b).now = b.now := rfl
@[simp] theorem clearDigest_keyhex (b : Block) : (clearDigest b).keyhex = b.keyhex := rfl
@[simp] theorem clearDigest_key (b : Block) : (clearDigest b).key = b.key := rfl
@[simp] theorem clearDigest_digest (b : Block) : (clearDigest b).digest = zeroBytes 20 := rfl
@[simp] theorem clearDigest_offset (b : Block) : (clearDigest b).offset = b.offset := rfl
@[simp] theorem clearDigest_binary (b : Block) : (clearDigest b).binary = b.binary := rfl
@[simp] theorem clearDigest_code (b : Block) : (clearDigest b).code = b.code := rfl
@[simp] theorem clearDigest_digits (b : Block) : (clearDigest b).digits = b.digits := rfl
@[simp] theorem clearDigest_cw (b : Block) : (clearDigest b).cw = b.cw := rfl
@[simp] theorem clearDigest_work (b : Block) : (clearDigest b).work = b.work := rfl

/-! ### `setTotpCounter` -/

@[simp] theorem setTotpCounter_status (b : Block) : (setTotpCounter b).status = b.status := rfl
@[simp] theorem setTotpCounter_hexlen (b : Block) : (setTotpCounter b).hexlen = b.hexlen := rfl
@[simp] theorem setTotpCounter_keylen (b : Block) : (setTotpCounter b).keylen = b.keylen := rfl
@[simp] theorem setTotpCounter_counter (b : Block) : (setTotpCounter b).counter = totpCounter b.now := rfl
@[simp] theorem setTotpCounter_now (b : Block) : (setTotpCounter b).now = b.now := rfl
@[simp] theorem setTotpCounter_keyhex (b : Block) : (setTotpCounter b).keyhex = b.keyhex := rfl
@[simp] theorem setTotpCounter_key (b : Block) : (setTotpCounter b).key = b.key := rfl
@[simp] theorem setTotpCounter_digest (b : Block) : (setTotpCounter b).digest = b.digest := rfl
@[simp] theorem setTotpCounter_offset (b : Block) : (setTotpCounter b).offset = b.offset := rfl
@[simp] theorem setTotpCounter_binary (b : Block) : (setTotpCounter b).binary = b.binary := rfl
@[simp] theorem setTotpCounter_code (b : Block) : (setTotpCounter b).code = b.code := rfl
@[simp] theorem setTotpCounter_digits (b : Block) : (setTotpCounter b).digits = b.digits := rfl
@[simp] theorem setTotpCounter_cw (b : Block) : (setTotpCounter b).cw = b.cw := rfl
@[simp] theorem setTotpCounter_work (b : Block) : (setTotpCounter b).work = b.work := rfl

/-! ### `completeBlock` -/

@[simp] theorem completeBlock_status (r : Result) : (completeBlock r).status = statusComplete r.1.status r.2 := rfl
@[simp] theorem completeBlock_hexlen (r : Result) : (completeBlock r).hexlen = r.1.hexlen := rfl
@[simp] theorem completeBlock_keylen (r : Result) : (completeBlock r).keylen = r.1.keylen := rfl
@[simp] theorem completeBlock_counter (r : Result) : (completeBlock r).counter = r.1.counter := rfl
@[simp] theorem completeBlock_now (r : Result) : (completeBlock r).now = r.1.now := rfl
@[simp] theorem completeBlock_keyhex (r : Result) : (completeBlock r).keyhex = r.1.keyhex := rfl
@[simp] theorem completeBlock_key (r : Result) : (completeBlock r).key = r.1.key := rfl
@[simp] theorem completeBlock_digest (r : Result) : (completeBlock r).digest = r.1.digest := rfl
@[simp] theorem completeBlock_offset (r : Result) : (completeBlock r).offset = r.1.offset := rfl
@[simp] theorem completeBlock_binary (r : Result) : (completeBlock r).binary = r.1.binary := rfl
@[simp] theorem completeBlock_code (r : Result) : (completeBlock r).code = r.1.code := rfl
@[simp] theorem completeBlock_digits (r : Result) : (completeBlock r).digits = r.1.digits := rfl
@[simp] theorem completeBlock_cw (r : Result) : (completeBlock r).cw = r.1.cw := rfl
@[simp] theorem completeBlock_work (r : Result) : (completeBlock r).work = r.1.work := rfl

/-! ### STATUS -/

@[simp] theorem statusAccept_busy (s : Status) : (statusAccept s).busy = true := rfl
@[simp] theorem statusAccept_done (s : Status) : (statusAccept s).done = false := rfl
@[simp] theorem statusAccept_hzd (s : Status) : (statusAccept s).hzd = s.hzd := rfl
@[simp] theorem statusAccept_err (s : Status) : (statusAccept s).err = 0 := rfl
@[simp] theorem statusComplete_busy (s : Status) (e : Option CmdError) : (statusComplete s e).busy = false := rfl
@[simp] theorem statusComplete_done (s : Status) (e : Option CmdError) : (statusComplete s e).done = true := rfl
@[simp] theorem statusComplete_hzd (s : Status) (e : Option CmdError) : (statusComplete s e).hzd = s.hzd := rfl
@[simp] theorem statusComplete_err (s : Status) (e : Option CmdError) : (statusComplete s e).err = errField e := rfl
@[simp] theorem statusHazard_busy (s : Status) : (statusHazard s).busy = s.busy := rfl
@[simp] theorem statusHazard_done (s : Status) : (statusHazard s).done = s.done := rfl
@[simp] theorem statusHazard_hzd (s : Status) : (statusHazard s).hzd = true := rfl
@[simp] theorem statusHazard_err (s : Status) : (statusHazard s).err = s.err := rfl

/-! ### Results -/

@[simp] theorem succeed_fst (b : Block) : (succeed b).1 = b := rfl
@[simp] theorem succeed_snd (b : Block) : (succeed b).2 = none := rfl
@[simp] theorem raise_fst (e : CmdError) (b : Block) : (raise e b).1 = b := rfl
@[simp] theorem raise_snd (e : CmdError) (b : Block) : (raise e b).2 = some e := rfl

/-! ### The machine -/

@[simp] theorem hostReads_block (s : State) (k : Slot) : (hostReads s k).block = s.block := rfl
@[simp] theorem hostReads_host (s : State) (k : Slot) : (hostReads s k).host = { s.host with reads := hostRead s.block k :: s.host.reads } := rfl
@[simp] theorem hostReads_turns (s : State) (k : Slot) : (hostReads s k).turns = s.turns := rfl
@[simp] theorem hostWrites_block (s : State) (k : Slot) (v : Word) : (hostWrites s k v).block = hostWrite s.block k v := rfl
@[simp] theorem hostWrites_host (s : State) (k : Slot) (v : Word) : (hostWrites s k v).host = s.host := rfl
@[simp] theorem hostWrites_turns (s : State) (k : Slot) (v : Word) : (hostWrites s k v).turns = s.turns := rfl
@[simp] theorem setScript_block (s : State) (t : Script) : (setScript s t).block = s.block := rfl
@[simp] theorem setScript_host (s : State) (t : Script) : (setScript s t).host = { s.host with script := t } := rfl
@[simp] theorem setScript_turns (s : State) (t : Script) : (setScript s t).turns = s.turns := rfl
@[simp] theorem takeTurn_block (s : State) : (takeTurn s).block = s.block := rfl
@[simp] theorem takeTurn_host (s : State) : (takeTurn s).host = s.host := rfl
@[simp] theorem takeTurn_turns (s : State) : (takeTurn s).turns = s.turns.tail := rfl
@[simp] theorem resetBlock_block (s : State) : (resetBlock s).block = Block.reset := rfl
@[simp] theorem resetBlock_host (s : State) : (resetBlock s).host = s.host := rfl
@[simp] theorem resetBlock_turns (s : State) : (resetBlock s).turns = s.turns := rfl
@[simp] theorem placeCommand_block (s : State) (w : Word) : (placeCommand s w).block = acceptCommand s.block w := rfl
@[simp] theorem placeCommand_host (s : State) (w : Word) : (placeCommand s w).host = s.host := rfl
@[simp] theorem placeCommand_turns (s : State) (w : Word) : (placeCommand s w).turns = .engine :: s.turns := rfl

end Sys2Proof.Machine
end

