-- ==== Sys2Proof/Laws/Ops.lean ====
section
/-! SUPPORT. For each shared operation, once, everything it can do. -/

namespace Sys2Proof.Machine

@[simp] theorem regOfSlot_cmd : regOfSlot (slotOfReg .cmd) = .cmd := by decide

@[simp] theorem regOfSlot_status : regOfSlot (slotOfReg .status) = .status := by decide

/-- A read of STATUS gives STATUS, busy or idle. -/
theorem hostRead_status (b : Block) (k : Slot) (h : regOfSlot k = .status) : hostRead b k = statusWord b.status := by
  simp [hostRead, h]

/-- A read of any other slot gives 0 while busy. -/
theorem hostRead_busy (b : Block) (k : Slot) (h : regOfSlot k ≠ .status) (hb : b.status.busy = true) :
    hostRead b k = 0 := by
  unfold hostRead
  split
  · contradiction
  · simp [hb]

/-- An idle read gives the slot's value. -/
theorem hostRead_idle (b : Block) (k : Slot) (hb : b.status.busy = false) : hostRead b k = slotValue b k := by
  unfold hostRead slotValue
  split
  · next h => rw [h]; rfl
  · simp [hb]

/-- The three things a host write can do: nothing but HZD, accept a command, store in a slot. -/
theorem hostWrite_cases (b : Block) (k : Slot) (v : Word) :
    (b.status.busy = true ∧ hostWrite b k v = { b with status := statusHazard b.status }) ∨
      (b.status.busy = false ∧ regOfSlot k = .cmd ∧ hostWrite b k v = acceptCommand b v) ∨
      (b.status.busy = false ∧ regOfSlot k ≠ .cmd ∧ hostWrite b k v = storeReg b (regOfSlot k) v) := by
  cases hb : b.status.busy with
  | true => exact .inl ⟨rfl, by simp [hostWrite, hb]⟩
  | false =>
    refine .inr ?_
    by_cases h : regOfSlot k = .cmd
    · exact .inl ⟨rfl, h, by simp [hostWrite, hb, h]⟩
    · refine .inr ⟨rfl, h, ?_⟩
      simp only [hostWrite, hb]
      split
      · contradiction
      · rfl

/-- Storing in a slot touches no flag, no result register and no hidden state. -/
theorem storeReg_frame (b : Block) (r : Reg) (v : Word) :
    (storeReg b r v).status = b.status ∧ (storeReg b r v).offset = b.offset ∧
      (storeReg b r v).binary = b.binary ∧ (storeReg b r v).code = b.code ∧
      (storeReg b r v).digits = b.digits ∧ (storeReg b r v).cw = b.cw ∧ (storeReg b r v).work = b.work := by
  cases r <;> simp [storeReg]

/-- What completing with `r` leaves: the machine with the block `r` gives, and nothing else changed. -/
theorem finish_next {s t : State} {r : Result} (h : finish s r = .next t) :
    t = { s with block := completeBlock r } := by
  simpa [finish] using h.symm

theorem finish_eq (s : State) (r : Result) : finish s r = .next { s with block := completeBlock r } := rfl

end Sys2Proof.Machine
end

