-- ==== Sys2Proof/Laws/Commands.lean ====
section
/-! SUPPORT. For each command, once, everything it can do to the block. -/

namespace Sys2Proof.Machine

/-- KEYDEC either decodes the key or destroys it. -/
theorem runKeydec_cases (b : Block) :
    (keyStringOk b = true ∧ runKeydec b = (setKey b (decodeHex b.keyhex) 32, none)) ∨
      (keyStringOk b = false ∧
        runKeydec b = (setKey b (zeroBytes 32) 0, some .invalidKeyFormat)) := by
  cases h : keyStringOk b with
  | true => exact .inl ⟨rfl, by simp [runKeydec, h, succeed]⟩
  | false => exact .inr ⟨rfl, by simp [runKeydec, h, raise]⟩

theorem keyLengthOk_iff (b : Block) : keyLengthOk b = true ↔ b.keylen = 32 := by
  simp [keyLengthOk]

/-- HMAC either computes the digest or clears it. -/
theorem runHmac_cases (b : Block) :
    (b.keylen = 32 ∧ runHmac b = (computeDigest b, none)) ∨
      (b.keylen ≠ 32 ∧ runHmac b = (clearDigest b, some .invalidKeyLength)) := by
  by_cases h : b.keylen = 32
  · exact .inl ⟨h, if_pos ((keyLengthOk_iff b).2 h)⟩
  · exact .inr ⟨h, if_neg (mt (keyLengthOk_iff b).1 h)⟩

/-- HOTP either computes the digest and truncates it, or clears all five outputs. -/
theorem runHotp_cases (b : Block) :
    (b.keylen = 32 ∧ runHotp b = (truncate (computeDigest b), none)) ∨
      (b.keylen ≠ 32 ∧ runHotp b = (clearCode (clearDigest b), some .invalidKeyLength)) := by
  by_cases h : b.keylen = 32
  · exact .inl ⟨h, if_pos ((keyLengthOk_iff b).2 h)⟩
  · exact .inr ⟨h, if_neg (mt (keyLengthOk_iff b).1 h)⟩

theorem runTrunc_eq (b : Block) : runTrunc b = (truncate b, none) := rfl

/-- TOTP writes COUNTER whatever happens, then does what HOTP does. -/
theorem runTotp_cases (b : Block) :
    (b.keylen = 32 ∧ runTotp b = (truncate (computeDigest (setTotpCounter b)), none)) ∨
      (b.keylen ≠ 32 ∧ runTotp b = (clearCode (clearDigest (setTotpCounter b)), some .invalidKeyLength)) :=
  runHotp_cases (setTotpCounter b)

theorem runZeroize_eq (b : Block) :
    runZeroize b = ({ Block.reset with status := b.status, cw := b.cw }, none) := rfl

/-- Completing any command changes nothing but the block, and the block as its rule says. -/
theorem exec_eq (i : Instr) (s : State) :
    exec i s = finish s
      (match i with
        | .keydec => runKeydec s.block
        | .hmac => runHmac s.block
        | .trunc => runTrunc s.block
        | .hotp => runHotp s.block
        | .totp => runTotp s.block
        | .zeroize => runZeroize s.block) := by
  cases i <;> rfl

/-- No command writes STATUS or CW itself. -/
theorem exec_result (i : Instr) (s : State) :
    ∃ r : Result, exec i s = .next { s with block := completeBlock r } ∧ r.1.status = s.block.status ∧
      r.1.cw = s.block.cw := by
  cases i with
  | keydec => rcases runKeydec_cases s.block with ⟨_, h⟩ | ⟨_, h⟩ <;> exact ⟨_, by rw [exec_eq, h, finish_eq], rfl, rfl⟩
  | hmac => rcases runHmac_cases s.block with ⟨_, h⟩ | ⟨_, h⟩ <;> exact ⟨_, by rw [exec_eq, h, finish_eq], rfl, rfl⟩
  | trunc => exact ⟨_, rfl, rfl, rfl⟩
  | hotp => rcases runHotp_cases s.block with ⟨_, h⟩ | ⟨_, h⟩ <;> exact ⟨_, by rw [exec_eq, h, finish_eq], rfl, rfl⟩
  | totp => rcases runTotp_cases s.block with ⟨_, h⟩ | ⟨_, h⟩ <;> exact ⟨_, by rw [exec_eq, h, finish_eq], rfl, rfl⟩
  | zeroize => exact ⟨_, rfl, rfl, rfl⟩

theorem otpCode_toNat (n : BitVec 31) : (otpCode n).toNat = n.toNat % 1000000 := by
  simp only [otpCode, Config.modulus, BitVec.toNat_ofNat]
  omega

theorem otpDigits_getElem (n : BitVec 20) (i : Nat) (h : i < 6) :
    ((otpDigits n)[i]).toNat = 48 + n.toNat / 10 ^ (5 - i) % 10 := by
  simp only [otpDigits, Vector.getElem_ofFn, BitVec.toNat_ofNat]
  omega

end Sys2Proof.Machine
end

