-- ==== Sys2Proof/Laws/PerInstr.lean ====
section
/-! SUPPORT. The statement family about every instruction as a piece of the command encoding. -/

namespace Sys2Proof.Laws.Encoding

/-- The instruction is well formed, the word that selects it passes every check on words, and that word, given as
the opcode table numbers its bits, is read back as the instruction (30_encoding R91, R93, R96). -/
def Statement (i : Instr) : Prop :=
  i.wellFormed = true ∧ wordWellFormed (encode i) = true ∧ decodeTableWord 32 (encode i).toNat = some i

theorem keydec : Statement .keydec := by unfold Statement; decide

theorem hmac : Statement .hmac := by unfold Statement; decide

theorem trunc : Statement .trunc := by unfold Statement; decide

theorem hotp : Statement .hotp := by unfold Statement; decide

theorem totp : Statement .totp := by unfold Statement; decide

theorem zeroize : Statement .zeroize := by unfold Statement; decide

end Sys2Proof.Laws.Encoding
end

