-- ==== Sys2Proof/Laws/Protocol.lean ====
section
/-! SUPPORT. What a poll shows, which lines may be performed while one is owed, and what walking a script can do. -/

namespace Sys2Proof.Machine

/-- A poll of STATUS shows exactly whether a command is held. -/
theorem pollSaysIdle_status (b : Block) : pollSaysIdle (hostRead b (slotOfReg .status)) = !b.status.busy := by
  show pollSaysIdle (statusWord b.status) = _
  obtain ⟨busy, done, hzd, err⟩ := b.status
  revert busy done hzd err
  decide

/-- While a poll is owed, a host that keeps the protocol writes nothing and reads STATUS alone. -/
theorem allowedWhileOwed_iff (s : Script) : allowedWhileOwed s = true ↔
    (∀ k v rest, s ≠ .wr k v rest) ∧ ∀ k rest, s = .rd k rest → k = slotOfReg .status := by
  cases s <;> simp [allowedWhileOwed]

/-- A script that may be performed with a `WAIT` owed may be performed with none owed, and then owes no more after. -/
theorem waitOwed_mono (s : Script) {x : Bool} (h : waitOwed s true = some x) :
    ∃ y, waitOwed s false = some y ∧ (y = true → x = true) := by
  induction s generalizing x with
  | done => exact ⟨false, rfl, by simp⟩
  | wr k v rest => simp [waitOwed] at h
  | rd k rest => simp [waitOwed] at h
  | wait rest => exact ⟨x, h, id⟩
  | ifThen c a b rest iha ihb ihr =>
    simp only [waitOwed] at h ⊢
    cases ha : waitOwed a true <;> cases hb : waitOwed b true <;> simp only [ha, hb] at h <;> try cases h
    obtain ⟨ya, ea, la⟩ := iha ha
    obtain ⟨yb, eb, lb⟩ := ihb hb
    simp only [ea, eb]
    rename_i xa xb
    cases hx : (xa || xb) <;> cases hy : (ya || yb) <;> rw [hx] at h
    · exact ⟨x, h, id⟩
    · simp_all
    · exact ihr h
    · exact ⟨x, h, id⟩

/-- A script that may be performed may be performed with less owed. -/
theorem waitOwed_less (s : Script) {owed owed' : Bool} (h : (waitOwed s owed).isSome = true)
    (hl : owed' = true → owed = true) : (waitOwed s owed').isSome = true := by
  cases owed <;> cases owed'
  · exact h
  · simp at hl
  · obtain ⟨x, hx⟩ := Option.isSome_iff_exists.1 h
    obtain ⟨y, hy, _⟩ := waitOwed_mono s hx
    simp [hy]
  · exact h

/-- Performing one script and then another. -/
theorem waitOwed_append (s t : Script) (owed : Bool) :
    waitOwed (s.append t) owed = (waitOwed s owed).bind (waitOwed t) := by
  induction s generalizing owed with
  | done => rfl
  | wr k v rest ih => cases owed <;> simp [Script.append, waitOwed, ih]
  | rd k rest ih => cases owed <;> simp [Script.append, waitOwed, ih]
  | wait rest ih => simp [Script.append, waitOwed, ih]
  | ifThen c a b rest iha ihb ihr =>
    simp only [Script.append, waitOwed]
    cases waitOwed a owed <;> cases waitOwed b owed <;> simp [ihr]

end Sys2Proof.Machine
end

