-- ==== Sys2Proof/Laws/Step.lean ====
section
/-! SUPPORT. Once, everything a step can do: the four transitions of 00_scope R9. -/

namespace Sys2Proof.Machine

/-- Everything an engine's turn can do. -/
theorem engineMove_cases (s : State) :
    (s.block.status.busy = false ∧ engineMove s = .next s) ∨
      (s.block.status.busy = true ∧ (∃ i, decode s.block.cw = .ok i ∧ engineMove s = exec i s)) ∨
      (s.block.status.busy = true ∧ (∃ e, decode s.block.cw = .error e) ∧
        engineMove s = .next { s with block := { s.block with
          status := statusComplete s.block.status (some .illegalCommand) } }) := by
  cases hb : s.block.status.busy with
  | false => exact .inl ⟨rfl, by simp [engineMove, hb]⟩
  | true =>
    refine .inr ?_
    cases hd : decode s.block.cw with
    | ok i => exact .inl ⟨rfl, i, rfl, by simp [engineMove, hb, hd]⟩
    | error e => exact .inr ⟨rfl, ⟨e, rfl⟩, by simp [engineMove, hb, hd, execIllegal, finish, completeBlock, raise]⟩

/-- A step is a reset, an engine's turn or a host's turn. -/
theorem step_cases (s : State) :
    (nextAgent s = .environment ∧ step s = .next (resetBlock (takeTurn s))) ∨
      (nextAgent s = .engine ∧ step s = engineMove (takeTurn s)) ∨
      (nextAgent s = .host ∧ step s = .next (hostMove (takeTurn s))) := by
  cases h : nextAgent s with
  | environment => exact .inl ⟨rfl, by simp [step, h]⟩
  | engine => exact .inr (.inl ⟨rfl, by simp [step, h]⟩)
  | host => exact .inr (.inr ⟨rfl, by simp [step, h]⟩)

/-- Everything a host's turn can do to the block: nothing, or one `HostWrite`. -/
theorem hostMove_block (s : State) :
    ((hostMove s).block = s.block) ∨
      (∃ k v rest, s.host.script = .wr k v rest ∧ (hostMove s).block = hostWrite s.block k v) := by
  unfold hostMove
  split
  · exact .inl rfl
  · next k v rest h => exact .inr ⟨k, v, rest, h, rfl⟩
  · exact .inl rfl
  · split <;> exact .inl rfl
  · exact .inl rfl

/-- No line of the host places or takes a turn. -/
theorem hostMove_turns (s : State) : (hostMove s).turns = s.turns := by
  unfold hostMove
  split <;> (try split) <;> rfl

/-- A run of the machine, one step at a time. -/
theorem run_succ {n : Nat} {s t : State} (h : step s = .next t) :
    Sys2Proof.core.run (n + 1) s = Sys2Proof.core.run n t := by
  have e : Sys2Proof.core.step s = .next t := h
  simp only [Host.Core.run, e]

end Sys2Proof.Machine
end

