-- ==== Sys2Proof/Tests/Slice0.lean ====
section
/-! SUPPORT. Tests of single steps with the results of spec/95_test_vectors.md, and for every statement with hypotheses
a witness that meets them. -/

namespace Sys2Proof.Tests

open Sys2Proof.Machine

/-! ### Helpers -/

/-- The machine after reset with this block and these turns placed. -/
def stateAt (b : Block) (turns : List Agent) : State := { State.reset with block := b, turns := turns }

/-- The machine with this script, block and turns. -/
def scripted (b : Block) (script : Script) (turns : List Agent) : State :=
  { State.reset with block := b, host := { script := script, reads := [] }, turns := turns }

/-- The block a step leaves. -/
def blockOf (r : Host.Outcome State Fault Refusal) : Option Block :=
  match r with
  | .next t => some t.block
  | .fault _ => none
  | .refused _ => none

/-- The block the command leaves. -/
def after (i : Instr) (b : Block) : Block := (blockOf (exec i (stateAt b []))).getD b

/-- A block that holds the command word `w`. -/
def holding (b : Block) (w : Word) : Block := acceptCommand b w

/-- The RFC key: 20 ASCII digits and 12 zero bytes (95_test_vectors, conventions). -/
def rfcKey : Vector Byte 32 :=
  #v[0x31, 0x32, 0x33, 0x34, 0x35, 0x36, 0x37, 0x38, 0x39, 0x30, 0x31, 0x32, 0x33, 0x34, 0x35, 0x36,
     0x37, 0x38, 0x39, 0x30, 0, 0, 0, 0, 0, 0, 0, 0, 0, 0, 0, 0]

/-- A block with the RFC key loaded raw (70_reset R243, path B). -/
def keyed : Block := { Block.reset with key := rfcKey, keylen := 32 }

/-- The bytes `0x30` to `0x39`, `0x61` to `0x66` in turn: the string L of 95_test_vectors section 4. -/
def stringL : Vector Byte 64 :=
  Vector.ofFn fun i =>
    if i.val % 16 < 10 then BitVec.ofNat 8 (0x30 + i.val % 16) else BitVec.ofNat 8 (0x57 + i.val % 16)

/-- A block with the string L loaded and its length stated. -/
def withL : Block := { Block.reset with keyhex := stringL, hexlen := 64 }

/-- A digest of one repeated byte. -/
def digestOf (x : Byte) : Vector Byte 20 := Vector.replicate 20 x

/-! ### Well-formedness and decoding -/

theorem test_rsv_not_zero_is_refused : reservedClear 0x00000104 = false ∧ wordWellFormed 0x00000104 = false := by
  decide

theorem test_opcode_not_listed_is_refused :
    opcodeListed 0x00000000 = false ∧ opcodeListed 0x00000007 = false ∧ wordWellFormed 0x000000FF = false := by
  decide

/-- RSV of 24 zero bits and OPC, as 30_encoding R90 and R91 lay them out. -/
theorem test_decode_keydec : decode (0b000000000000000000000000#24 ++ 0b00000001#8) = .ok .keydec := by decide

theorem test_decode_hmac : decode (0b000000000000000000000000#24 ++ 0b00000010#8) = .ok .hmac := by decide

theorem test_decode_trunc : decode (0b000000000000000000000000#24 ++ 0b00000011#8) = .ok .trunc := by decide

theorem test_decode_hotp : decode (0b000000000000000000000000#24 ++ 0b00000100#8) = .ok .hotp := by decide

theorem test_decode_totp : decode (0b000000000000000000000000#24 ++ 0b00000101#8) = .ok .totp := by decide

theorem test_decode_zeroize : decode (0b000000000000000000000000#24 ++ 0b00000110#8) = .ok .zeroize := by decide

theorem test_decode_illegal :
    decode (0b000000000000000000000001#24 ++ 0b00000100#8) = .error .reservedNotZero ∧
      decode (0b000000000000000000000000#24 ++ 0b00000111#8) = .error .opcodeNotListed := by decide

theorem test_table_word : decodeTableWord 32 4 = some .hotp ∧ decodeTableWord 32 0x104 = none := by decide

/-! ### Single steps, with the results of 95_test_vectors -/

/-- V-BUS-1, V-BUS-6, V-BUS-4, V-BUS-5. -/
theorem test_bus_idle :
    hostRead Block.reset 1 = 0 ∧ hostRead (hostWrite Block.reset 2 0xFFFFFFFF) 2 = 0xFFFFFFFF ∧
      hostRead (hostWrite Block.reset 4 0xDEADBEEF) 5 = 0 ∧ hostRead (hostWrite Block.reset 4 0xDEADBEEF) 4 = 0xDEADBEEF ∧
      hostRead (after .trunc (holding Block.reset 3)) 0 = 0 := by decide +kernel

/-- V-BUS-3: STATUS, OFFSET, BINARY, CODE, DIGITS0, DIGITS1, 0xA8, 0xFC. -/
theorem test_bus_read_only :
    ([1, 37, 38, 39, 40, 41, 42, 63] : List Slot).all (fun k => hostWrite Block.reset k 0xFFFFFFFF == Block.reset) = true := by
  decide +kernel

/-- V-BUS-7, V-BUS-8: reads and writes while busy (KEY0 is 0x31323334). -/
theorem test_bus_busy :
    hostRead keyed 24 = 0x31323334 ∧ hostRead (holding keyed 4) 24 = 0 ∧ hostRead (holding keyed 4) 1 = 0x01 ∧
      hostRead (hostWrite (holding keyed 4) 24 7) 1 = 0x05 ∧ (hostWrite (holding keyed 4) 24 7).key = rfcKey := by
  decide +kernel

/-- V-BUS-10: KEY[12..16] are the bytes of the word written to KEY3. -/
theorem test_bus_key3 :
    (hostWrite Block.reset 27 0xA1B2C3D4).key = #v[0, 0, 0, 0, 0, 0, 0, 0, 0, 0, 0, 0, 0xa1, 0xb2, 0xc3, 0xd4, 0, 0, 0, 0, 0, 0,
      0, 0, 0, 0, 0, 0, 0, 0, 0, 0] := by decide +kernel

/-- V-BUS-9: a reset while busy. -/
theorem test_reset_while_busy : blockOf (step (stateAt (holding keyed 4) [.environment])) = some Block.reset := by decide +kernel

/-- V-KEYDEC-2: L decodes to 0123456789abcdef four times. -/
theorem test_keydec_lower :
    let b := after .keydec withL
    slotValue b 24 = 0x01234567 ∧ slotValue b 31 = 0x89ABCDEF ∧ b.keylen = 32 ∧ slotValue b 1 = 0x02 := by decide +kernel

/-- V-KEYDEC-14 and V-KEYDEC-24: `g` as the last character; the old key is destroyed. -/
theorem test_keydec_bad_last :
    let b := after .keydec { withL with keyhex := withL.keyhex.set 63 0x67, key := rfcKey, keylen := 32 }
    b.key = zeroBytes 32 ∧ b.keylen = 0 ∧ slotValue b 1 = 0x12 := by decide +kernel

/-- V-SHA-1: the compression of the padded message "abc". -/
theorem test_compress_abc :
    compress sha1Iv (Vector.ofFn fun i => ([0x61, 0x62, 0x63, 0x80] : List Byte).getD i.val (if i.val = 63 then 0x18 else 0)) =
      { a := 0xA9993E36, b := 0x4706816A, c := 0xBA3E2571, d := 0x7850C26C, e := 0x9CD0D89D } := by decide +kernel

/-- V-HMAC-1: the digest for counter 0. -/
theorem test_hmac_counter_zero :
    let b := after .hmac keyed
    b.digest = #v[0xcc, 0x93, 0xcf, 0x18, 0x50, 0x8d, 0x94, 0x93, 0x4c, 0x64, 0xb6, 0x5d, 0x8b, 0xa7, 0x66, 0x7f, 0xb7, 0xcd,
      0xe4, 0xb0] ∧ b.code = 0 ∧ slotValue b 1 = 0x02 := by decide +kernel

/-- V-HMAC-E4: KEYLEN is compared on all 32 bits; DIGEST is cleared. -/
theorem test_hmac_key_length :
    let b := after .hmac { keyed with keylen := 0x120, digest := digestOf 0xff }
    b.digest = zeroBytes 20 ∧ b.key = rfcKey ∧ slotValue b 1 = 0x22 := by decide +kernel

/-- V-TRUNC-1: the sign bit is masked, offset 15. -/
theorem test_trunc_all_ones :
    let b := after .trunc { Block.reset with digest := digestOf 0xff }
    b.offset = 15 ∧ b.binary = 0x7FFFFFFF ∧ b.code = 483647 ∧ slotValue b 40 = 0x34383336 ∧ slotValue b 41 = 0x34370000 := by
  decide +kernel

/-- V-TRUNC-22: leading zeros, offset 7. -/
theorem test_trunc_leading_zeros :
    let b := after .trunc { Block.reset with
      digest := #v[0, 0, 0, 0, 0, 0, 0, 0x00, 0x0f, 0x42, 0x6a, 0, 0, 0, 0, 0, 0, 0, 0, 0x57] }
    b.offset = 7 ∧ b.binary = 1000042 ∧ b.code = 42 ∧ slotValue b 40 = 0x30303030 ∧ slotValue b 41 = 0x34320000 := by
  decide +kernel

/-- V-HOTP-1: counter 1, code 287082, offset 11; COUNTER is kept. -/
theorem test_hotp_counter_one :
    let b := after .hotp { keyed with counter := 1 }
    b.offset = 11 ∧ b.binary = 0x41397EEA ∧ b.code = 287082 ∧ slotValue b 40 = 0x32383730 ∧ b.counter = 1 := by decide +kernel

/-- V-HOTP-E1: no key; the outputs are cleared to 0x00 bytes, COUNTER is kept. -/
theorem test_hotp_no_key :
    let b := after .hotp { Block.reset with counter := 7, digits := Vector.replicate 6 0x39, code := 999999 }
    b.digits = zeroBytes 6 ∧ b.code = 0 ∧ b.counter = 7 ∧ slotValue b 1 = 0x22 := by decide +kernel

/-- V-TOTP-16: the largest time; the code is 277486. -/
theorem test_totp_largest_time :
    let b := after .totp { keyed with now := 0xFFFFFFFFFFFFFFFF }
    slotValue b 4 = 0x08888888 ∧ slotValue b 5 = 0x88888888 ∧ b.code = 277486 := by decide +kernel

/-- V-TOTP-E1: COUNTER is written although the command fails. -/
theorem test_totp_no_key :
    let b := after .totp { Block.reset with counter := 0xAAAAAAAA55555555, now := 61 }
    b.counter = 2 ∧ b.now = 61 ∧ slotValue b 1 = 0x22 := by decide +kernel

/-- V-SYS-3: HZD survives ZEROIZE, the key does not. -/
theorem test_zeroize_keeps_hzd :
    let b := after .zeroize { keyed with status := { busy := true, done := false, hzd := true, err := 0 } }
    b.key = zeroBytes 32 ∧ b.keylen = 0 ∧ slotValue b 1 = 0x06 := by decide +kernel

/-- V-ILL-4: 0x00000104 is not HOTP; nothing but STATUS changes. -/
theorem test_illegal_word :
    blockOf (step (stateAt (holding keyed 0x104) [])) =
      some { keyed with cw := 0x104, status := { busy := false, done := true, hzd := false, err := 3 } } := by decide +kernel

/-- The placed word is run by the very next step (log 3). -/
theorem test_placed_word :
    (blockOf (step (State.reset.withFetchWord 32 3))).map (fun b => slotValue b 40) = some 0x30303030 := by decide +kernel

/-! ### Witnesses: encoding and the register space -/

theorem witness_DecodeIsInverseOfEncode :
    Instr.wellFormed .zeroize = true ∧ decode 6 = .ok .zeroize := by decide

theorem witness_DecodeFollowsTheOpcodeMap :
    256 ≤ (256 : Word).toNat ∧ 256 ≤ (0xFFFFFFFF : Word).toNat ∧ (0 : Word).toNat = 0 ∧ (1 : Word).toNat = 1 ∧
      (6 : Word).toNat = 6 ∧ (7 ≤ (7 : Word).toNat ∧ (7 : Word).toNat ≤ 255) ∧
      (7 ≤ (255 : Word).toNat ∧ (255 : Word).toNat ≤ 255) := by decide

theorem witness_LegalWordsAreTheWellFormedOnes : wordWellFormed 1 = true ∧ wordWellFormed 7 = false := by decide

theorem witness_NumberSlotsReadTheirRegister : 42 ≤ (42 : Slot).toNat ∧ 42 ≤ (63 : Slot).toNat := by decide

theorem witness_HostReadFollowsTheBusyRule :
    ((0 : Slot) ≠ 1 ∧ (63 : Slot) ≠ 1) ∧ (holding keyed 4).status.busy = true ∧ keyed.status.busy = false ∧
      StatusOk (holding keyed 4).status := by decide

theorem witness_HostWriteFollowsTheRule :
    (holding keyed 4).status.busy = true ∧ keyed.status.busy = false ∧ (2 ≤ (2 : Slot).toNat ∧ (2 : Slot).toNat ≤ 36) ∧
      (2 ≤ (36 : Slot).toNat ∧ (36 : Slot).toNat ≤ 36) ∧ (3 : Slot) ≠ 2 ∧ 37 ≤ (37 : Slot).toNat ∧ 37 ≤ (63 : Slot).toNat := by
  decide

/-! ### Witnesses: the transitions -/

theorem witness_StepCompletesTheHeldCommand :
    let s := stateAt (holding keyed 3) []
    let t := stateAt (holding keyed 3) [.engine, .host]
    (EngineMoves s ∧ s.block.status.busy = true ∧ decode s.block.cw = .ok .trunc) ∧
      (EngineMoves t ∧ t.block.status.busy = true ∧ decode t.block.cw = .ok .trunc) := by decide

theorem witness_IllegalWordCompletesWithCodeThree :
    let s := stateAt (holding keyed 7) []
    EngineMoves s ∧ s.block.status.busy = true ∧ wordWellFormed s.block.cw = false := by decide

theorem witness_EngineTurnWhileIdleDoesNothing :
    let s := stateAt keyed [.engine]
    s.turns.head? = some .engine ∧ s.block.status.busy = false := by decide

theorem witness_ResetFromAnyState : (stateAt (holding keyed 4) [.environment]).turns.head? = some .environment := by decide

/-- A script for the witnesses, with a line of every form. -/
def everyLine : Script := .wr 2 64 (.rd 2 (.wait (.ifThen { mask := 1, value := 0 } (.rd 1 .done) .done .done)))

theorem witness_HostLinesAct :
    HostMoves (scripted keyed everyLine []) ∧ (scripted keyed everyLine []).host.script = everyLine ∧
      HostMoves (scripted keyed (.rd 2 .done) [.host]) ∧
      (HostMoves (scripted (holding keyed 4) (.wait .done) [.host]) ∧
        (scripted (holding keyed 4) (.wait .done) [.host]).block.status.busy = true) ∧
      (HostMoves (scripted keyed (.wait .done) []) ∧ (scripted keyed (.wait .done) []).block.status.busy = false) ∧
      HostMoves (scripted keyed (.ifThen { mask := 1, value := 0 } .done .done .done) []) ∧
      HostMoves (scripted keyed .done []) := by decide

/-! ### Witnesses: the commands -/

theorem witness_HexDigitValues :
    (0x30 ≤ (0x30 : Byte).toNat ∧ (0x39 : Byte).toNat ≤ 0x39) ∧ (0x41 ≤ (0x41 : Byte).toNat ∧ (0x46 : Byte).toNat ≤ 0x46) ∧
      (0x61 ≤ (0x61 : Byte).toNat ∧ (0x66 : Byte).toNat ≤ 0x66) := by decide

theorem witness_KeydecFollowsTheRule_valid : KeyStringValid withL := by decide +kernel

theorem witness_KeydecFollowsTheRule_invalid :
    ¬KeyStringValid { withL with hexlen := 63 } ∧ ¬KeyStringValid { withL with hexlen := 65 } ∧
      ¬KeyStringValid { withL with keyhex := withL.keyhex.set 0 0x67 } := by decide +kernel

theorem witness_KeydecDecodesEncodedKeys :
    let b := { Block.reset with hexlen := 64, keyhex := encodeHex (Vector.replicate 64 false) rfcKey }
    (stateAt b []).block.hexlen = 64 ∧ (stateAt b []).block.keyhex = encodeHex (Vector.replicate 64 false) rfcKey := by decide +kernel

theorem witness_KeyLengthClauses :
    keyed.keylen = 32 ∧ Block.reset.keylen ≠ 32 ∧ { keyed with keylen := 31 }.keylen ≠ 32 ∧
      { keyed with keylen := 33 }.keylen ≠ 32 ∧ { keyed with keylen := 0x120 }.keylen ≠ 32 := by decide

theorem witness_HotpIsHmacThenTrunc : (stateAt keyed []).block.keylen = 32 := by decide

theorem witness_TruncFollowsTheRule :
    (truncOffset (digestOf 0xff)).toNat + 3 < 20 ∧ (truncOffset (digestOf 0)).toNat + 3 < 20 := by decide +kernel

theorem witness_TotpIsConstantInAWindow :
    (29 : DWord).toNat / 30 = (stateAt keyed []).block.now.toNat / 30 ∧
      (0xFFFFFFFFFFFFFFFF : DWord).toNat / 30 = (stateAt { keyed with now := 0xFFFFFFFFFFFFFFF0 } []).block.now.toNat / 30 := by
  decide

theorem witness_CommandsWriteOnlyTheirOutputs :
    writesSlot .keydec 2 = false ∧ writesSlot .hmac 37 = false ∧ writesSlot .trunc 36 = false ∧ writesSlot .hotp 5 = false ∧
      writesSlot .totp 7 = false ∧ writesSlot .totp 5 = true ∧ (0 : Slot) ≠ 1 := by decide

/-- Blocks that differ, but not in the operands of the commands. -/
theorem witness_CommandsDependOnlyOnTheirOperands :
    let s := stateAt keyed []
    let t := stateAt { keyed with code := 5, cw := 9, status := { busy := true, done := false, hzd := true, err := 0 } } []
    s ≠ t ∧ s.block.hexlen = t.block.hexlen ∧ s.block.keyhex = t.block.keyhex ∧ s.block.keylen = t.block.keylen ∧
      s.block.key = t.block.key ∧ s.block.counter = t.block.counter ∧ s.block.digest = t.block.digest ∧
      s.block.now = t.block.now := by decide +kernel

/-! ### Witnesses: truncation, SHA-1 and HMAC -/

theorem witness_TruncationBounds : (2147483647 : BitVec 31).toNat = 2147483647 := by decide

theorem witness_DigitsSpellTheCode : (999999 : BitVec 20).toNat ≤ 999999 ∧ (0 : BitVec 20).toNat ≤ 999999 := by decide

/-- Offset 15 and the top bit of byte 15, the high nibble of byte 19 and byte 0 changed. -/
theorem witness_TruncationReadsOnlyItsWindow :
    let d := digestOf 0xff
    let e := ((d.set 15 0x7f).set 19 0x0f).set 0 0
    d ≠ e ∧ d[19].toNat % 16 = e[19].toNat % 16 ∧
      (∀ i : Fin 20, i.val = d[19].toNat % 16 → d[i].toNat % 128 = e[i].toNat % 128) ∧
      (∀ i : Fin 20, d[19].toNat % 16 < i.val → i.val ≤ d[19].toNat % 16 + 3 → d[i] = e[i]) := by decide +kernel

theorem witness_RotationAsArithmetic : (0 < 1 ∧ 1 < 32) ∧ (0 < 31 ∧ 31 < 32) := by decide

theorem witness_RoundFunctionsBitByBit :
    (0 < 20 ∧ 19 < 20) ∧ (20 ≤ 20 ∧ 39 < 40) ∧ (40 ≤ 40 ∧ 59 < 60) ∧ (60 ≤ 60 ∧ 79 < 80) ∧ 31 < 32 := by decide

theorem witness_ScheduleFollowsTheRecurrence : (15 < 80 ∧ 15 < 16) ∧ (16 < 80 ∧ 16 ≤ 16) ∧ (79 < 80 ∧ 16 ≤ 79) := by decide

theorem witness_CompressionIsEightyRounds : 0 < 80 ∧ 79 < 80 := by decide

theorem witness_HmacBlocksByteByByte :
    32 ≤ (32 : Fin 64).val ∧ 32 ≤ (63 : Fin 64).val ∧ (9 ≤ (9 : Fin 64).val ∧ (61 : Fin 64).val < 62) ∧
      (21 ≤ (21 : Fin 64).val ∧ (61 : Fin 64).val < 62) := by decide

theorem witness_ShortKeysPadOnTheRight :
    ([] : List Byte).length ≤ 32 ∧ (rfcKey.toList.take 20).length ≤ 32 ∧ rfcKey.toList.length ≤ 32 := by decide

/-! ### Witnesses: the whole machine -/

theorem witness_InvariantIsKept :
    BlockInv (State.reset.withFetchWord 32 3).block ∧
      blockOf (step (State.reset.withFetchWord 32 3)) = some (after .trunc (holding Block.reset 3)) := by decide +kernel

theorem witness_HazardFlagIsSticky :
    let s := scripted (holding keyed 4) (.wr 24 7 .done) [.host]
    (HostMoves s ∧ s.block.status.busy = true ∧ s.block.status.hzd = false ∧ s.host.script = .wr 24 7 .done) ∧
      (blockOf (step s)).map (fun b => b.status.hzd) = some true ∧
      (stateAt (hostWrite (holding keyed 4) 0 6) [.environment]).block.status.hzd = true := by decide +kernel

/-- BUSY rises, falls by Complete, falls by Reset, and stays while the host moves. -/
theorem witness_BusyFollowsAcceptanceAndCompletion :
    ((scripted keyed (.wr 0 3 .done) []).block.status.busy = false ∧
      (blockOf (step (scripted keyed (.wr 0 3 .done) []))).map (fun b => b.status.busy) = some true) ∧
    ((stateAt (holding keyed 3) []).block.status.busy = true ∧
      (blockOf (step (stateAt (holding keyed 3) []))).map (fun b => b.status.busy) = some false) ∧
    ((stateAt (holding keyed 3) [.environment]).block.status.busy = true ∧
      (blockOf (step (stateAt (holding keyed 3) [.environment]))).map (fun b => b.status.busy) = some false) ∧
    HostMoves (scripted (holding keyed 3) (.wait .done) [.host]) := by decide +kernel

/-- DONE rises at completion; ERR changes with an illegal word; both are cleared by the next acceptance. -/
theorem witness_DoneAndErrChangeWithCommandsOnly :
    (blockOf (step (stateAt (holding keyed 7) []))).map (fun b => (b.status.done, b.status.err)) = some (true, 3) ∧
      (blockOf (step (scripted (after .hmac Block.reset) (.wr 0 3 .done) []))).map
        (fun b => (b.status.done, b.status.err)) = some (false, 0) := by decide +kernel

/-- KEY changes by Reset, by ZEROIZE and by a host write to KEY7. -/
theorem witness_KeyIsNeverChangedByItsUsers :
    (blockOf (step (stateAt keyed [.environment]))).map (fun b => b.key) ≠ some rfcKey ∧
      (blockOf (step (stateAt (holding keyed 6) []))).map (fun b => b.key) ≠ some rfcKey ∧
      (blockOf (step (scripted keyed (.wr 31 1 .done) []))).map (fun b => b.key) ≠ some rfcKey := by decide +kernel

/-- A script that keeps the protocol: a counter, HOTP, WAIT, a result read. -/
def hotpScript : Script := lineWr .counterLo 1 (lineCmd .hotp (.wait (lineRd .code .done)))

/-- A branch that ends in a command, with its WAIT after END; no access stands between them. -/
def waitAfterEnd : Script :=
  .ifThen { mask := 1, value := 0 } (lineCmd .trunc .done) .done (.wait (lineRd .code .done))

/-- No access between CMD and WAIT, wherever END stands; an access in one branch before WAIT breaks the protocol. -/
theorem test_protocol_and_branches :
    keepsProtocol waitAfterEnd = true ∧
      keepsProtocol (lineCmd .trunc (.ifThen { mask := 1, value := 0 } (.wait .done) (.wait .done) (lineRd .code .done))) =
        true ∧
      keepsProtocol (lineCmd .trunc (.ifThen { mask := 1, value := 0 } (.wait .done) .done (lineRd .code .done))) = false := by
  decide

/-- A host that polls with a written-out RD STATUS and branches on what it read. -/
def pollingScript : Script := lineRd .status (.ifThen { mask := 1, value := 0 } (lineRd .code .done) .done .done)

/-- Polling while busy and while idle, a command issued, and a result read when nothing is owed any more. -/
theorem witness_ProtocolIsSafe :
    let busy := scripted (holding keyed 4) pollingScript [.host]
    let idle := scripted keyed pollingScript []
    let issue := scripted keyed (lineCmd .hotp pollingScript) []
    let result := scripted keyed (.rd 39 .done) []
    (PollInv true busy ∧ HostKeepsPolling true busy ∧ HostMoves busy ∧ pollOwedAfter true busy = true) ∧
      (PollInv true idle ∧ HostKeepsPolling true idle ∧ HostMoves idle ∧ pollOwedAfter true idle = false) ∧
      (PollInv false issue ∧ HostKeepsPolling false issue ∧ pollOwedAfter false issue = true) ∧
      (PollInv false result ∧ HostKeepsPolling false result ∧ HostMoves result) ∧ ¬HostKeepsPolling true result := by
  decide +kernel

theorem witness_WaitingScriptsKeepTheProtocol :
    ProtocolInv (scripted keyed hotpScript []) ∧ ProtocolInv (scripted (holding keyed 4) (.wait .done) [.host]) ∧
      (ProtocolInv (scripted keyed (.rd 39 .done) []) ∧ HostMoves (scripted keyed (.rd 39 .done) [])) ∧
      ProtocolInv (scripted keyed waitAfterEnd []) ∧ keepsProtocol (lineCmd .hotp (lineRd .code .done)) = false := by decide

theorem witness_HiddenStateIsUnobservable :
    let s := stateAt keyed []
    let t := stateAt { keyed with cw := 3, work := { Work.zero with inner := Vector.replicate 20 1 } } []
    s ≠ t ∧ SameButHidden s.block t.block ∧ s.host = t.host ∧ s.turns = t.turns := by decide +kernel

theorem witness_EveryAcceptedCommandCompletes :
    let s := stateAt (holding keyed 3) [.host, .host, .engine]
    s.block.status.busy = true ∧ NoReset s.turns := by decide

/-- A script that keeps the protocol, for the runs below. -/
def truncScript : Script := lineCmd .trunc (.wait .done)

/-- Is the outcome a state whose run has ended? -/
def ended (r : Host.Outcome State Fault Refusal) : Bool :=
  match r with
  | .next t => decide (Finished t)
  | .fault _ => false
  | .refused _ => false

/-- Complete at once, and Complete after two polls: both runs end. -/
theorem witness_EndStateIgnoresTheSchedule :
    let s := scripted Block.reset truncScript []
    let t := scripted Block.reset truncScript [.host, .host, .host, .engine]
    ProtocolInv s ∧ NoReset s.turns ∧ NoReset t.turns ∧ s.block = t.block ∧ s.host = t.host ∧
      ended (Sys2Proof.core.run 3 s) = true ∧ ended (Sys2Proof.core.run 5 t) = true := by decide +kernel

/-- The same for a script whose WAIT stands after END: it reads 0, takes the branch, and waits. -/
theorem witness_EndStateIgnoresTheSchedule_branch :
    let s := scripted Block.reset (.rd 2 waitAfterEnd) []
    let t := scripted Block.reset (.rd 2 waitAfterEnd) [.host, .host, .host, .host, .engine]
    ProtocolInv s ∧ NoReset s.turns ∧ NoReset t.turns ∧ s.block = t.block ∧ s.host = t.host ∧
      ended (Sys2Proof.core.run 6 s) = true ∧ ended (Sys2Proof.core.run 7 t) = true := by decide +kernel

/-- The three scripts, run: the registers they fill. -/
theorem witness_LoadLinesFillTheirRegisters :
    (blockOf (Sys2Proof.core.run 9 (scripted Block.reset (lineLdkey rfcKey .done) []))) = some keyed ∧
      (blockOf (Sys2Proof.core.run 17 (scripted Block.reset (lineLdhex stringL.toList .done) []))) = some withL ∧
      (blockOf (Sys2Proof.core.run 17 (scripted withL (lineLdhex [0x30, 0x31] .done) []))).map
        (fun b => (b.hexlen, b.keyhex[0], b.keyhex[1], b.keyhex[2])) = some (2, 0x30, 0x31, 0) ∧
      (blockOf (Sys2Proof.core.run 5 (scripted Block.reset (lineLddigest (digestOf 0xff) .done) []))).map
        (fun b => b.digest) = some (digestOf 0xff) := by decide +kernel

end Sys2Proof.Tests
end

