-- ==== Sys2Proof/Proofs/Rotation.lean ====
section
/-! The rotation `ROTL` (00_scope R7) on natural numbers. -/

namespace Sys2Proof.Machine

/-- The left shift fills only positions from `n` up, the right shift only positions below `n`. -/
theorem shiftLeft_and_ushiftRight_eq_zero (w : Word) (n : Nat) :
    w <<< n &&& w >>> (32 - n) = 0#32 := by
  ext i hi
  rw [BitVec.getElem_and, BitVec.getElem_shiftLeft, BitVec.getElem_ushiftRight, BitVec.getElem_zero]
  by_cases hin : i < n
  · simp [hin]
  · have hout : w.getLsbD (32 - n + i) = false := BitVec.getLsbD_of_ge _ _ (by omega)
    simp [hout]

/-- The two halves share no bit, so their `or` is a sum without carry. -/
theorem toNat_rotl (w : Word) (n : Nat) :
    (rotl w n).toNat = w.toNat * 2 ^ n % 2 ^ 32 + w.toNat / 2 ^ (32 - n) := by
  have hdisjoint := shiftLeft_and_ushiftRight_eq_zero w n
  rw [rotl, ← BitVec.add_eq_or_of_and_eq_zero _ _ hdisjoint,
    BitVec.toNat_add_of_and_eq_zero hdisjoint, BitVec.toNat_shiftLeft, BitVec.toNat_ushiftRight,
    Nat.shiftLeft_eq, Nat.shiftRight_eq_div_pow]

/-- Settles O39: the equation holds for every shift count, so for those of R7. -/
theorem rotationAsArithmetic : Obligations.RotationAsArithmetic :=
  fun w n _ _ => toNat_rotl w n

end Sys2Proof.Machine
end

