-- ==== Sys2Proof/Proofs/StateFamily.lean ====
section
/-! The statements about the state (10_state). What a command gives and what a step can do to the block are said once,
by `commandResult` and `Transition`; each statement follows by the cases of a `Transition`. -/

namespace Sys2Proof.Machine

-- The check's memory limit counts the stack of every thread, and the long kernel tests above hold nearly all of it.
-- With this option Lean elaborates each proof of this section where it stands, without a thread of its own; it has no
-- other effect, as the section declares no `variable`.
set_option deprecated.oldSectionVars true

/-! ### The transitions -/

/-- What the command's pseudocode returns on the block (30_encoding R97); `exec_eq_finish` ties it to `exec`. -/
def commandResult (i : Instr) (b : Block) : Result :=
  match i with
  | .keydec => runKeydec b
  | .hmac => runHmac b
  | .trunc => runTrunc b
  | .hotp => runHotp b
  | .totp => runTotp b
  | .zeroize => runZeroize b

/-- What `Complete` of the word in CW returns, legal or not; `engineMove_of_busy` ties it to the engine's move. -/
def heldResult (b : Block) : Result :=
  match decode b.cw with
  | .ok i => commandResult i b
  | .error _ => raise .illegalCommand b

/-- The blocks a step from `s` can leave, one case per transition of 00_scope R9 and per case of `HostWrite`
(20_memory R63), each with what must hold for it; `step_transition` ties it to `step`, `Transition.elim` names the
cases. -/
def Transition (s : State) (b : Block) : Prop :=
  (nextAgent s = .environment ∧ b = Block.reset) ∨
    (nextAgent s = .engine ∧ s.block.status.busy = false ∧ b = s.block) ∨
    (nextAgent s = .engine ∧ s.block.status.busy = true ∧ b = completeBlock (heldResult s.block)) ∨
    (nextAgent s = .host ∧ (∀ k v rest, s.host.script ≠ .wr k v rest) ∧ b = s.block) ∨
    (nextAgent s = .host ∧ s.block.status.busy = true ∧ (∃ k v rest, s.host.script = .wr k v rest) ∧
      b = { s.block with status := statusHazard s.block.status }) ∨
    (nextAgent s = .host ∧ s.block.status.busy = false ∧
      ∃ v rest, s.host.script = .wr 0 v rest ∧ b = acceptCommand s.block v) ∨
    (nextAgent s = .host ∧ s.block.status.busy = false ∧
      ∃ k v rest, s.host.script = .wr k v rest ∧ b = storeReg s.block (regOfSlot k) v)

/-- The case rule of `Transition`, for `induction … using`. -/
theorem Transition.elim {s : State} {motive : ∀ b, Transition s b → Prop}
    (reset : ∀ agent, motive Block.reset (.inl ⟨agent, rfl⟩))
    (engineIdle : ∀ agent idle, motive s.block (.inr (.inl ⟨agent, idle, rfl⟩)))
    (complete : ∀ agent busy, motive (completeBlock (heldResult s.block)) (.inr (.inr (.inl ⟨agent, busy, rfl⟩))))
    (noWrite : ∀ agent line, motive s.block (.inr (.inr (.inr (.inl ⟨agent, line, rfl⟩)))))
    (hazard : ∀ agent busy line, motive { s.block with status := statusHazard s.block.status }
      (.inr (.inr (.inr (.inr (.inl ⟨agent, busy, line, rfl⟩))))))
    (accept : ∀ agent idle v rest line, motive (acceptCommand s.block v)
      (.inr (.inr (.inr (.inr (.inr (.inl ⟨agent, idle, v, rest, line, rfl⟩)))))))
    (store : ∀ agent idle k v rest line, motive (storeReg s.block (regOfSlot k) v)
      (.inr (.inr (.inr (.inr (.inr (.inr ⟨agent, idle, k, v, rest, line, rfl⟩)))))))
    {b : Block} (tr : Transition s b) : motive b tr := by
  obtain ⟨agent, rfl⟩ | ⟨agent, idle, rfl⟩ | ⟨agent, busy, rfl⟩ | ⟨agent, line, rfl⟩ | ⟨agent, busy, line, rfl⟩ |
    ⟨agent, idle, v, rest, line, rfl⟩ | ⟨agent, idle, k, v, rest, line, rfl⟩ := tr
  · exact reset agent
  · exact engineIdle agent idle
  · exact complete agent busy
  · exact noWrite agent line
  · exact hazard agent busy line
  · exact accept agent idle v rest line
  · exact store agent idle k v rest line

/-! ### STATUS as a word, and the slots named in the statements -/

/-- Each flag and ERR stands in bits of its own, so the word is their sum (10_state R33). -/
theorem statusWord_toNat (s : Status) :
    (statusWord s).toNat = s.busy.toNat + 2 * s.done.toNat + 4 * s.hzd.toNat + 16 * s.err.toNat := by
  obtain ⟨busy, done, hzd, err⟩ := s
  revert busy done hzd err
  decide

/-- Settles O8: slot 1 is STATUS. -/
theorem statusWordLayout : Obligations.StatusWordLayout :=
  fun b => statusWord_toNat b.status

/-- CMD stands at slot 0 alone (20_memory R61). -/
theorem eq_zero_of_regOfSlot_eq_cmd {k : Slot} : regOfSlot k = .cmd → k = 0 := by
  revert k
  decide

/-- The words of KEY stand at slots 24 to 31 alone (20_memory R61). -/
theorem slot_range_of_regOfSlot_eq_key {k : Slot} {i : Fin 8} :
    regOfSlot k = .key i → 24 ≤ k.toNat ∧ k.toNat ≤ 31 := by
  revert k i
  decide

@[simp] theorem storeReg_status (b : Block) (r : Reg) (v : Word) : (storeReg b r v).status = b.status :=
  (storeReg_frame b r v).1

/-- A store changes KEY only at a register that is a word of it. -/
theorem eq_key_of_storeReg_key_ne {b : Block} {r : Reg} {v : Word} (h : (storeReg b r v).key ≠ b.key) :
    ∃ i, r = .key i := by
  cases r with
  | key i => exact ⟨i, rfl⟩
  | _ => exact absurd rfl h

/-! ### What the held command gives -/

theorem exec_eq_finish (i : Instr) (s : State) : exec i s = finish s (commandResult i s.block) := by
  cases i <;> rfl

theorem heldResult_of_decode_ok {b : Block} {i : Instr} (h : decode b.cw = .ok i) :
    heldResult b = commandResult i b := by
  simp [heldResult, h]

theorem heldResult_of_decode_error {b : Block} {e : Illegal} (h : decode b.cw = .error e) :
    heldResult b = raise .illegalCommand b := by
  simp [heldResult, h]

theorem engineMove_of_busy {s : State} (hb : s.block.status.busy = true) :
    engineMove s = finish s (heldResult s.block) := by
  cases hd : decode s.block.cw with
  | ok i => simp [engineMove, hb, hd, heldResult_of_decode_ok hd, exec_eq_finish]
  | error e => simp [engineMove, hb, hd, heldResult_of_decode_error hd, execIllegal]

theorem engineMove_of_idle {s : State} (hb : s.block.status.busy = false) : engineMove s = .next s := by
  simp [engineMove, hb]

/-- No command writes STATUS itself; its completion does. -/
theorem commandResult_status (i : Instr) (b : Block) : (commandResult i b).1.status = b.status := by
  cases i with
  | keydec => rcases runKeydec_cases b with ⟨_, h⟩ | ⟨_, h⟩ <;> simp [commandResult, h]
  | hmac => rcases runHmac_cases b with ⟨_, h⟩ | ⟨_, h⟩ <;> simp [commandResult, h]
  | trunc => rfl
  | hotp => rcases runHotp_cases b with ⟨_, h⟩ | ⟨_, h⟩ <;> simp [commandResult, h]
  | totp => rcases runTotp_cases b with ⟨_, h⟩ | ⟨_, h⟩ <;> simp [commandResult, h]
  | zeroize => rfl

@[simp] theorem heldResult_status (b : Block) : (heldResult b).1.status = b.status := by
  cases hd : decode b.cw with
  | ok i => rw [heldResult_of_decode_ok hd, commandResult_status]
  | error e => rw [heldResult_of_decode_error hd, raise_fst]

/-- The commands that use KEY leave it (30_encoding R92). -/
theorem commandResult_key_ne {i : Instr} {b : Block} (h : (commandResult i b).1.key ≠ b.key) :
    i = .keydec ∨ i = .zeroize := by
  cases i with
  | keydec => exact .inl rfl
  | hmac => rcases runHmac_cases b with ⟨_, hr⟩ | ⟨_, hr⟩ <;> simp [commandResult, hr] at h
  | trunc => exact absurd rfl h
  | hotp => rcases runHotp_cases b with ⟨_, hr⟩ | ⟨_, hr⟩ <;> simp [commandResult, hr] at h
  | totp => rcases runTotp_cases b with ⟨_, hr⟩ | ⟨_, hr⟩ <;> simp [commandResult, hr] at h
  | zeroize => exact .inr rfl

theorem heldResult_key_ne {b : Block} (h : (heldResult b).1.key ≠ b.key) :
    decode b.cw = .ok .keydec ∨ decode b.cw = .ok .zeroize := by
  cases hd : decode b.cw with
  | ok i =>
    rw [heldResult_of_decode_ok hd] at h
    rcases commandResult_key_ne h with rfl | rfl
    · exact .inl rfl
    · exact .inr rfl
  | error e =>
    rw [heldResult_of_decode_error hd, raise_fst] at h
    exact absurd rfl h

/-- OFFSET, BINARY, CODE and DIGITS are written together or not at all: a command keeps them, truncates a digest, or
clears them. -/
theorem commandResult_code (i : Instr) (b : Block) :
    SameCode (commandResult i b).1 b ∨ (∃ c, (commandResult i b).1 = truncate c) ∨
      ∃ c, (commandResult i b).1 = clearCode c := by
  cases i with
  | keydec => rcases runKeydec_cases b with ⟨_, h⟩ | ⟨_, h⟩ <;> exact .inl (by simp [SameCode, commandResult, h])
  | hmac => rcases runHmac_cases b with ⟨_, h⟩ | ⟨_, h⟩ <;> exact .inl (by simp [SameCode, commandResult, h])
  | trunc => exact .inr (.inl ⟨b, rfl⟩)
  | hotp =>
    rcases runHotp_cases b with ⟨_, h⟩ | ⟨_, h⟩
    · exact .inr (.inl ⟨_, congrArg Prod.fst h⟩)
    · exact .inr (.inr ⟨_, congrArg Prod.fst h⟩)
  | totp =>
    rcases runTotp_cases b with ⟨_, h⟩ | ⟨_, h⟩
    · exact .inr (.inl ⟨_, congrArg Prod.fst h⟩)
    · exact .inr (.inr ⟨_, congrArg Prod.fst h⟩)
  | zeroize => exact .inr (.inr ⟨_, rfl⟩)

/-! ### Whose turn it is -/

theorem nextAgent_eq_environment_iff (s : State) :
    nextAgent s = .environment ↔ s.turns.head? = some .environment := by
  unfold nextAgent
  cases s.turns with
  | nil => cases s.block.status.busy <;> simp
  | cons a turns => simp

theorem nextAgent_eq_engine_iff (s : State) : nextAgent s = .engine ↔ EngineMoves s := by
  unfold nextAgent EngineMoves
  cases s.turns with
  | nil => cases s.block.status.busy <;> simp
  | cons a turns => simp

theorem nextAgent_eq_host_iff (s : State) : nextAgent s = .host ↔ HostMoves s := by
  unfold nextAgent HostMoves
  cases s.turns with
  | nil => cases s.block.status.busy <;> simp
  | cons a turns => simp

/-! ### What a step can do to the block -/

/-- A line that is no `WR` leaves the block. -/
theorem hostMove_block_of_no_write {s : State} (h : ∀ k v rest, s.host.script ≠ .wr k v rest) :
    (hostMove s).block = s.block := by
  rcases hostMove_block s with hblock | ⟨k, v, rest, hline, _⟩
  · exact hblock
  · exact absurd hline (h k v rest)

theorem hostMove_block_of_write {s : State} {k : Slot} {v : Word} {rest : Script}
    (h : s.host.script = .wr k v rest) : (hostMove s).block = hostWrite s.block k v := by
  simp [hostMove, h]

/-- What the host's `WR` line does to the block, by the cases of `HostWrite`. -/
theorem Transition.of_hostWrite {s : State} (agent : nextAgent s = .host) {k : Slot} {v : Word} {rest : Script}
    (line : s.host.script = .wr k v rest) : Transition s (hostWrite s.block k v) := by
  rcases hostWrite_cases s.block k v with ⟨busy, h⟩ | ⟨idle, hk, h⟩ | ⟨idle, _, h⟩ <;> rw [h]
  · exact .inr (.inr (.inr (.inr (.inl ⟨agent, busy, ⟨k, v, rest, line⟩, rfl⟩))))
  · exact .inr (.inr (.inr (.inr (.inr (.inl ⟨agent, idle, v, rest, eq_zero_of_regOfSlot_eq_cmd hk ▸ line, rfl⟩)))))
  · exact .inr (.inr (.inr (.inr (.inr (.inr ⟨agent, idle, k, v, rest, line, rfl⟩)))))

/-- Every state has a step, and the step is one of the transitions. -/
theorem step_transition (s : State) : ∃ t, step s = .next t ∧ Transition s t.block := by
  rcases step_cases s with ⟨agent, hstep⟩ | ⟨agent, hstep⟩ | ⟨agent, hstep⟩
  · exact ⟨_, hstep, .inl ⟨agent, rfl⟩⟩
  · cases hb : s.block.status.busy with
    | false => exact ⟨_, hstep.trans (engineMove_of_idle hb), .inr (.inl ⟨agent, hb, rfl⟩)⟩
    | true => exact ⟨_, hstep.trans (engineMove_of_busy hb), .inr (.inr (.inl ⟨agent, hb, rfl⟩))⟩
  · refine ⟨_, hstep, ?_⟩
    by_cases hline : ∃ k v rest, s.host.script = .wr k v rest
    · obtain ⟨k, v, rest, hline⟩ := hline
      rw [hostMove_block_of_write (s := takeTurn s) hline]
      exact Transition.of_hostWrite agent hline
    · have hnone : ∀ k v rest, s.host.script ≠ .wr k v rest := fun k v rest h => hline ⟨k, v, rest, h⟩
      rw [hostMove_block_of_no_write (s := takeTurn s) hnone]
      exact .inr (.inr (.inr (.inl ⟨agent, hnone, rfl⟩)))

/-! ### The invariant (10_state R42) -/

/-- Settles O17: each value is the one `Block.reset` lists. -/
theorem resetValues : Obligations.ResetValues := by
  refine ⟨rfl, rfl, rfl, rfl, rfl, ?_, ?_, ?_, rfl, rfl, rfl, ?_, rfl, rfl⟩ <;>
    exact fun i => Vector.getElem_replicate i.isLt

/-- The part of the block's invariant that is about the result registers. -/
def ResultsOk (b : Block) : Prop := ResultsInRange b ∧ ResultsAgree b

theorem blockInv_iff (b : Block) : BlockInv b ↔ StatusOk b.status ∧ ResultsOk b := Iff.rfl

theorem ResultsOk.of_sameCode {b c : Block} (h : ResultsOk b) (hsame : SameCode c b) : ResultsOk c := by
  obtain ⟨ho, hb, hc, hd⟩ := hsame
  unfold ResultsOk at h ⊢
  rwa [ResultsInRange, ResultsAgree, ho, hb, hc, hd]

/-- The code and its digits are in range by 42_truncation R165, and TRUNC writes both from BINARY. -/
theorem resultsOk_truncate (b : Block) : ResultsOk (truncate b) := by
  have hcode : (otpCode (truncBinary b.digest)).toNat < 1000000 := by
    rw [otpCode_toNat]
    exact Nat.mod_lt _ (by decide)
  have hdigits : AreDigits (otpDigits (otpCode (truncBinary b.digest))) := fun i => by
    have hdigit := otpDigits_getElem (otpCode (truncBinary b.digest)) i.val i.isLt
    simp only [Fin.getElem_fin, hdigit]
    omega
  exact ⟨⟨(truncOffset b.digest).isLt, (truncBinary b.digest).isLt, hcode, .inr hdigits⟩, rfl, .inl rfl⟩

/-- Cleared, the four result registers are all zero. -/
theorem resultsOk_clearCode (b : Block) : ResultsOk (clearCode b) :=
  ⟨⟨(0 : BitVec 4).isLt, (0 : BitVec 31).isLt, by simp, .inl rfl⟩, rfl, .inr ⟨rfl, rfl, rfl, rfl⟩⟩

theorem resultsOk_commandResult {b : Block} (i : Instr) (h : ResultsOk b) : ResultsOk (commandResult i b).1 := by
  rcases commandResult_code i b with hsame | ⟨c, hc⟩ | ⟨c, hc⟩
  · exact h.of_sameCode hsame
  · exact hc ▸ resultsOk_truncate c
  · exact hc ▸ resultsOk_clearCode c

theorem resultsOk_heldResult {b : Block} (h : ResultsOk b) : ResultsOk (heldResult b).1 := by
  cases hd : decode b.cw with
  | ok i => exact heldResult_of_decode_ok hd ▸ resultsOk_commandResult i h
  | error e => exact heldResult_of_decode_error hd ▸ h

theorem statusOk_accept (s : Status) : StatusOk (statusAccept s) := by
  simp [StatusOk]

/-- Every error code is at most 3 (60_exceptions R211). -/
theorem statusOk_complete (s : Status) (e : Option CmdError) : StatusOk (statusComplete s e) := by
  have hcode : (errField e).toNat ≤ 3 := by
    cases e with
    | none => decide
    | some e => cases e <;> decide
  simp [StatusOk, hcode]

/-- Settles O48: reset clears STATUS, and the result registers as `clearCode` does. -/
theorem invariantHoldsAtReset : Obligations.InvariantHoldsAtReset :=
  ⟨by decide, resultsOk_clearCode Block.reset⟩

theorem Transition.blockInv {s : State} {b : Block} (tr : Transition s b) (h : BlockInv s.block) : BlockInv b := by
  obtain ⟨hstatus, hresults⟩ := (blockInv_iff _).1 h
  induction tr using Transition.elim with
  | reset => exact invariantHoldsAtReset
  | engineIdle => exact h
  | complete => exact ⟨statusOk_complete _ _, (resultsOk_heldResult hresults).of_sameCode ⟨rfl, rfl, rfl, rfl⟩⟩
  | noWrite => exact h
  | hazard => exact ⟨hstatus, hresults⟩
  | accept => exact ⟨statusOk_accept _, hresults⟩
  | store agent idle k v rest line =>
    obtain ⟨hst, ho, hb, hc, hd, _, _⟩ := storeReg_frame s.block (regOfSlot k) v
    exact ⟨hst ▸ hstatus, hresults.of_sameCode ⟨ho, hb, hc, hd⟩⟩

/-- Settles O49: each transition keeps the invariant. -/
theorem invariantIsKept : Obligations.InvariantIsKept := by
  intro s t hinv hstep
  obtain ⟨t', hstep', tr⟩ := step_transition s
  obtain rfl : t = t' := by simpa [hstep] using hstep'
  exact tr.blockInv hinv

/-! ### The flags of STATUS (10_state R34 to R37) -/

theorem Transition.eq_reset {s : State} {b : Block} (tr : Transition s b) (agent : nextAgent s = .environment) :
    b = Block.reset := by
  induction tr using Transition.elim with
  | reset => rfl
  | _ => simp_all

theorem Transition.hzd_of_busy_write {s : State} {b : Block} (tr : Transition s b) (agent : nextAgent s = .host)
    (busy : s.block.status.busy = true) {k : Slot} {v : Word} {rest : Script} (line : s.host.script = .wr k v rest) :
    b.status.hzd = true := by
  induction tr using Transition.elim with
  | hazard => rfl
  | noWrite _ hnone => exact absurd line (hnone k v rest)
  | reset | engineIdle | complete | accept | store => simp_all

theorem Transition.reset_of_hzd_falls {s : State} {b : Block} (tr : Transition s b) (h : s.block.status.hzd = true)
    (h' : b.status.hzd = false) : nextAgent s = .environment := by
  induction tr using Transition.elim with
  | reset agent => exact agent
  | _ => simp_all

theorem Transition.busy_write_of_hzd_rises {s : State} {b : Block} (tr : Transition s b)
    (h : s.block.status.hzd = false) (h' : b.status.hzd = true) :
    nextAgent s = .host ∧ s.block.status.busy = true ∧ ∃ k v rest, s.host.script = .wr k v rest := by
  induction tr using Transition.elim with
  | hazard agent busy line => exact ⟨agent, busy, line⟩
  | reset => exact absurd h' (by decide)
  | _ => simp_all

/-- Settles O50: of the transitions, `hazard` alone sets HZD and `reset` alone clears it. -/
theorem hazardFlagIsSticky : Obligations.HazardFlagIsSticky := by
  intro s
  obtain ⟨t, hstep, tr⟩ := step_transition s
  refine ⟨t, hstep, fun k v rest hmoves busy line => ?_, fun hturn => ?_, fun h h' => ?_, fun h h' => ?_⟩
  · exact tr.hzd_of_busy_write ((nextAgent_eq_host_iff s).2 hmoves) busy line
  · rw [tr.eq_reset ((nextAgent_eq_environment_iff s).2 hturn)]
    rfl
  · exact (nextAgent_eq_environment_iff s).1 (tr.reset_of_hzd_falls h h')
  · obtain ⟨agent, busy, line⟩ := tr.busy_write_of_hzd_rises h h'
    exact ⟨(nextAgent_eq_host_iff s).1 agent, busy, line⟩

theorem Transition.accept_of_busy_rises {s : State} {b : Block} (tr : Transition s b)
    (h : s.block.status.busy = false) (h' : b.status.busy = true) :
    nextAgent s = .host ∧ ∃ v rest, s.host.script = .wr 0 v rest ∧ b = acceptCommand s.block v := by
  induction tr using Transition.elim with
  | accept agent _ v rest line => exact ⟨agent, v, rest, line, rfl⟩
  | reset => exact absurd h' (by decide)
  | _ => simp_all

theorem Transition.done_or_reset_of_busy_falls {s : State} {b : Block} (tr : Transition s b)
    (h : s.block.status.busy = true) (h' : b.status.busy = false) :
    nextAgent s = .engine ∧ b.status.done = true ∨ nextAgent s = .environment := by
  induction tr using Transition.elim with
  | reset agent => exact .inr agent
  | complete agent => exact .inl ⟨agent, rfl⟩
  | _ => simp_all

/-- While a command is held, the host changes nothing but STATUS (20_memory R72). -/
theorem Transition.frame_of_busy_host {s : State} {b : Block} (tr : Transition s b) (agent : nextAgent s = .host)
    (busy : s.block.status.busy = true) : b = { s.block with status := b.status } ∧ b.status.busy = true := by
  induction tr using Transition.elim with
  | noWrite => exact ⟨rfl, busy⟩
  | hazard => exact ⟨rfl, busy⟩
  | _ => simp_all

/-- Settles O51: `accept` alone raises BUSY; `complete` and `reset` alone lower it. -/
theorem busyFollowsAcceptanceAndCompletion : Obligations.BusyFollowsAcceptanceAndCompletion := by
  intro s
  obtain ⟨t, hstep, tr⟩ := step_transition s
  refine ⟨t, hstep, fun h h' => ?_, fun h h' => ?_, fun busy hmoves => ?_⟩
  · obtain ⟨agent, v, rest, line, hblock⟩ := tr.accept_of_busy_rises h h'
    exact ⟨(nextAgent_eq_host_iff s).1 agent, v, rest, line, by simp [hblock]⟩
  · exact (tr.done_or_reset_of_busy_falls h h').imp
      (And.imp_left (nextAgent_eq_engine_iff s).1) (nextAgent_eq_environment_iff s).1
  · exact tr.frame_of_busy_host ((nextAgent_eq_host_iff s).2 hmoves) busy

/-- Settles O52: every other transition keeps DONE and ERR. -/
theorem doneAndErrChangeWithCommandsOnly : Obligations.DoneAndErrChangeWithCommandsOnly := by
  intro s
  obtain ⟨t, hstep, tr⟩ := step_transition s
  refine ⟨t, hstep, fun hchange => ?_⟩
  generalize t.block = b at tr hchange ⊢
  induction tr using Transition.elim with
  | reset agent => exact .inl ((nextAgent_eq_environment_iff s).1 agent)
  | complete agent busy => exact .inr (.inl ⟨(nextAgent_eq_engine_iff s).1 agent, busy, rfl⟩)
  | accept agent idle v rest line =>
    exact .inr (.inr ⟨(nextAgent_eq_host_iff s).1 agent, idle, rfl, rfl, v, rest, line⟩)
  | engineIdle | noWrite | hazard | store => simp at hchange

/-! ### KEY (10_state R23) -/

/-- Settles O53: beside `reset`, `complete` changes KEY for KEYDEC and ZEROIZE only, and `store` at the slots of KEY
only. -/
theorem keyIsNeverChangedByItsUsers : Obligations.KeyIsNeverChangedByItsUsers := by
  intro s
  obtain ⟨t, hstep, tr⟩ := step_transition s
  refine ⟨t, hstep, fun hchange => ?_⟩
  generalize t.block = b at tr hchange
  induction tr using Transition.elim with
  | reset agent => exact .inl ((nextAgent_eq_environment_iff s).1 agent)
  | complete agent busy =>
    exact .inr (.inl ⟨(nextAgent_eq_engine_iff s).1 agent, busy, heldResult_key_ne hchange⟩)
  | store agent idle k v rest line =>
    obtain ⟨i, hkey⟩ := eq_key_of_storeReg_key_ne hchange
    exact .inr (.inr ⟨(nextAgent_eq_host_iff s).1 agent, idle, k, v, rest, line, slot_range_of_regOfSlot_eq_key hkey⟩)
  | engineIdle | noWrite | hazard | accept => exact absurd rfl hchange

/-! ### Hidden state (10_state R39) -/

/-- The block with other hidden state. -/
def withHidden (b : Block) (work : Work) (cw : Word) : Block := { b with work := work, cw := cw }

theorem sameButHidden_iff {b c : Block} :
    SameButHidden b c ↔ ∃ work cw, c = withHidden b work cw ∧ (b.status.busy = true → cw = b.cw) := by
  constructor
  · rintro ⟨hc, hcw⟩
    exact ⟨c.work, c.cw, hc, hcw⟩
  · rintro ⟨work, cw, rfl, hcw⟩
    exact ⟨rfl, hcw⟩

/-- `SameButHidden` of a block that holds no command asks nothing of CW. -/
theorem sameButHidden_withHidden_of_idle {b : Block} (idle : b.status.busy = false) (work : Work) (cw : Word) :
    SameButHidden b (withHidden b work cw) :=
  ⟨rfl, fun busy => by simp [idle] at busy⟩

theorem SameButHidden.status_eq {b c : Block} (h : SameButHidden b c) : c.status = b.status := by
  rw [h.1]

/-- No slot shows hidden state. -/
theorem SameButHidden.hostRead_eq {b c : Block} (h : SameButHidden b c) (k : Slot) : hostRead c k = hostRead b k := by
  obtain ⟨work, cw, rfl, _⟩ := sameButHidden_iff.1 h
  rfl

theorem storeReg_withHidden (b : Block) (r : Reg) (v : Word) (work : Work) (cw : Word) :
    storeReg (withHidden b work cw) r v = withHidden (storeReg b r v) work cw := by
  cases r <;> rfl

theorem hostWrite_of_busy {b : Block} (busy : b.status.busy = true) (k : Slot) (v : Word) :
    hostWrite b k v = { b with status := statusHazard b.status } := by
  simp [hostWrite, busy]

theorem hostWrite_of_cmd {b : Block} (idle : b.status.busy = false) {k : Slot} (hk : regOfSlot k = .cmd) (v : Word) :
    hostWrite b k v = acceptCommand b v := by
  simp [hostWrite, idle, hk]

theorem hostWrite_of_ne_cmd {b : Block} (idle : b.status.busy = false) {k : Slot} (hk : regOfSlot k ≠ .cmd)
    (v : Word) : hostWrite b k v = storeReg b (regOfSlot k) v := by
  simp [hostWrite, idle]

theorem SameButHidden.hostWrite {b c : Block} (h : SameButHidden b c) (k : Slot) (v : Word) :
    SameButHidden (hostWrite b k v) (hostWrite c k v) := by
  obtain ⟨work, cw, rfl, hcw⟩ := sameButHidden_iff.1 h
  rcases hostWrite_cases b k v with ⟨busy, hb⟩ | ⟨idle, hk, hb⟩ | ⟨idle, hk, hb⟩ <;> rw [hb]
  · rw [hostWrite_of_busy (b := withHidden b work cw) busy]
    exact ⟨rfl, hcw⟩
  · rw [hostWrite_of_cmd (b := withHidden b work cw) idle hk]
    exact ⟨rfl, fun _ => rfl⟩
  · rw [hostWrite_of_ne_cmd (b := withHidden b work cw) idle hk, storeReg_withHidden]
    exact sameButHidden_withHidden_of_idle ((storeReg_status b _ v).symm ▸ idle) work cw

/-- HMAC sets up its working variables before it uses them. -/
theorem runHmac_withHidden (b : Block) (work : Work) (cw : Word) :
    ∃ work', runHmac (withHidden b work cw) = (withHidden (runHmac b).1 work' cw, (runHmac b).2) := by
  rcases runHmac_cases b with ⟨hlen, h⟩ | ⟨hlen, h⟩ <;> rw [h]
  · exact ⟨hmacWork b.key b.counter, if_pos ((keyLengthOk_iff b).2 hlen)⟩
  · exact ⟨work, if_neg (mt (keyLengthOk_iff b).1 hlen)⟩

theorem runHotp_withHidden (b : Block) (work : Work) (cw : Word) :
    ∃ work', runHotp (withHidden b work cw) = (withHidden (runHotp b).1 work' cw, (runHotp b).2) := by
  rcases runHotp_cases b with ⟨hlen, h⟩ | ⟨hlen, h⟩ <;> rw [h]
  · exact ⟨hmacWork b.key b.counter, if_pos ((keyLengthOk_iff b).2 hlen)⟩
  · exact ⟨work, if_neg (mt (keyLengthOk_iff b).1 hlen)⟩

theorem runKeydec_withHidden (b : Block) (work : Work) (cw : Word) :
    runKeydec (withHidden b work cw) = (withHidden (runKeydec b).1 work cw, (runKeydec b).2) := by
  rcases runKeydec_cases b with ⟨hok, h⟩ | ⟨hok, h⟩ <;> rw [h]
  · exact if_pos hok
  · exact if_neg (ne_true_of_eq_false hok)

/-- No command's result depends on hidden state, but for the hidden state it leaves. -/
theorem commandResult_withHidden (i : Instr) (b : Block) (work : Work) (cw : Word) :
    ∃ work', commandResult i (withHidden b work cw) =
      (withHidden (commandResult i b).1 work' cw, (commandResult i b).2) := by
  cases i with
  | keydec => exact ⟨work, runKeydec_withHidden b work cw⟩
  | hmac => exact runHmac_withHidden b work cw
  | trunc => exact ⟨work, rfl⟩
  | hotp => exact runHotp_withHidden b work cw
  | totp => exact runHotp_withHidden (setTotpCounter b) work cw
  | zeroize => exact ⟨Work.zero, rfl⟩

theorem heldResult_withHidden (b : Block) (work : Work) :
    ∃ work', heldResult (withHidden b work b.cw) = (withHidden (heldResult b).1 work' b.cw, (heldResult b).2) := by
  cases hd : decode b.cw with
  | ok i =>
    rw [heldResult_of_decode_ok hd, heldResult_of_decode_ok (b := withHidden b work b.cw) hd]
    exact commandResult_withHidden i b work b.cw
  | error e =>
    rw [heldResult_of_decode_error hd, heldResult_of_decode_error (b := withHidden b work b.cw) hd]
    exact ⟨work, rfl⟩

theorem SameButHidden.completeBlock {b c : Block} (h : SameButHidden b c) (busy : b.status.busy = true) :
    SameButHidden (completeBlock (heldResult b)) (completeBlock (heldResult c)) := by
  obtain ⟨work, cw, rfl, hcw⟩ := sameButHidden_iff.1 h
  obtain rfl := hcw busy
  obtain ⟨work', hresult⟩ := heldResult_withHidden b work
  rw [hresult]
  exact sameButHidden_withHidden_of_idle rfl work' b.cw

/-- The two machines differ in hidden state of the block at most (10_state R39). -/
def LooksSame (s t : State) : Prop := SameButHidden s.block t.block ∧ s.host = t.host ∧ s.turns = t.turns

theorem LooksSame.block {s t : State} (h : LooksSame s t) : SameButHidden s.block t.block := h.1

theorem LooksSame.host {s t : State} (h : LooksSame s t) : s.host = t.host := h.2.1

theorem LooksSame.turns {s t : State} (h : LooksSame s t) : s.turns = t.turns := h.2.2

theorem LooksSame.busy_eq {s t : State} (h : LooksSame s t) : t.block.status.busy = s.block.status.busy :=
  congrArg Status.busy (SameButHidden.status_eq h.block)

theorem LooksSame.nextAgent_eq {s t : State} (h : LooksSame s t) : nextAgent t = nextAgent s := by
  simp only [nextAgent, h.busy_eq, h.turns]

theorem LooksSame.takeTurn {s t : State} (h : LooksSame s t) : LooksSame (takeTurn s) (takeTurn t) :=
  ⟨h.block, h.host, congrArg List.tail h.turns⟩

theorem LooksSame.resetBlock {s t : State} (h : LooksSame s t) : LooksSame (resetBlock s) (resetBlock t) :=
  ⟨⟨rfl, fun _ => rfl⟩, h.host, h.turns⟩

theorem LooksSame.engineMove {s t : State} (h : LooksSame s t) :
    ∃ s' t', engineMove s = .next s' ∧ engineMove t = .next t' ∧ LooksSame s' t' := by
  cases hb : s.block.status.busy with
  | false => exact ⟨s, t, engineMove_of_idle hb, engineMove_of_idle (h.busy_eq.trans hb), h⟩
  | true =>
    exact ⟨_, _, engineMove_of_busy hb, engineMove_of_busy (h.busy_eq.trans hb),
      SameButHidden.completeBlock h.block hb, h.host, h.turns⟩

/-- Every word a host's turn reads, and every line it goes on to, is the same on both sides. -/
theorem LooksSame.hostMove {s t : State} (h : LooksSame s t) : LooksSame (hostMove s) (hostMove t) := by
  obtain ⟨b, ⟨script, reads⟩, turns⟩ := s
  obtain ⟨c, _, _⟩ := t
  obtain ⟨hblock, rfl, rfl⟩ := h
  have hread : ∀ k, hostRead c k = hostRead b k := SameButHidden.hostRead_eq hblock
  cases script with
  | done => exact ⟨hblock, rfl, rfl⟩
  | wr k v rest => exact ⟨SameButHidden.hostWrite hblock k v, rfl, rfl⟩
  | rd k rest => exact ⟨hblock, by simp [Machine.hostMove, hread], rfl⟩
  | wait rest =>
    simp only [Machine.hostMove, hread]
    split <;> exact ⟨hblock, by simp [hread], rfl⟩
  | ifThen cond a b rest => exact ⟨hblock, rfl, rfl⟩

/-- Both machines have the same turn, so the same agent moves in both. -/
theorem LooksSame.step {s t : State} (h : LooksSame s t) :
    ∃ s' t', step s = .next s' ∧ step t = .next t' ∧ LooksSame s' t' := by
  cases hagent : nextAgent s with
  | environment =>
    exact ⟨_, _, by simp only [Machine.step, hagent], by simp only [Machine.step, h.nextAgent_eq, hagent],
      h.takeTurn.resetBlock⟩
  | engine => simpa only [Machine.step, h.nextAgent_eq, hagent] using h.takeTurn.engineMove
  | host =>
    exact ⟨_, _, by simp only [Machine.step, hagent], by simp only [Machine.step, h.nextAgent_eq, hagent],
      h.takeTurn.hostMove⟩

/-- Settles O55: a step keeps `LooksSame`. -/
theorem hiddenStateIsUnobservable : Obligations.HiddenStateIsUnobservable := by
  intro s t hblock hhost hturns
  obtain ⟨s', t', hs, ht, h⟩ := LooksSame.step ⟨hblock, hhost, hturns⟩
  exact ⟨s', t', hs, ht, h.block, h.host, h.turns⟩

end Sys2Proof.Machine
end

