-- ==== Sys2Proof/Proofs/MemoryFamily.lean ====
section
/-! The statements about the register space (20_memory). That slots and registers correspond, and what a store does to
each register's value, are said once; a statement about a slot is then one about the register that stands there. -/

namespace Sys2Proof.Machine

-- Elaborate each proof where it stands, not in a thread of its own, whose stack would count against the check's memory
-- limit; no other effect, as the section declares no `variable`.
set_option deprecated.oldSectionVars true

/-! ### The register map (20_memory R60, R61) -/

theorem slotOfReg_regOfSlot (k : Slot) : slotOfReg (regOfSlot k) = k := by
  revert k
  decide

@[simp] theorem regOfSlot_slotOfReg (r : Reg) : regOfSlot (slotOfReg r) = r := by
  cases r with
  | keyhex i | key i | digest i | reserved i => revert i; decide
  | _ => rfl

/-- Settles O5: the two maps are inverse to each other. -/
theorem slotsAndRegistersCorrespond : Obligations.SlotsAndRegistersCorrespond :=
  ⟨slotOfReg_regOfSlot, regOfSlot_slotOfReg⟩

theorem regOfSlot_injective {j k : Slot} (h : regOfSlot j = regOfSlot k) : j = k := by
  rw [← slotOfReg_regOfSlot j, h, slotOfReg_regOfSlot]

/-- The slot at which a register stands has the register's value. -/
theorem slotValue_slotOfReg (b : Block) (r : Reg) : slotValue b (slotOfReg r) = regValue b r := by
  rw [slotValue, regOfSlot_slotOfReg]

/-- Slots 42 to 63 are the reserved ones (20_memory R69). -/
theorem exists_reserved_of_le {k : Slot} : 42 ≤ k.toNat → ∃ i, regOfSlot k = .reserved i := by
  revert k
  decide

/-! ### The values of the slots (20_memory R61, R66, R67) -/

/-- The two parts share no bit, so their concatenation is a sum. -/
theorem toNat_append_eq_add {m n : Nat} (x : BitVec m) (y : BitVec n) :
    (x ++ y).toNat = x.toNat * 2 ^ n + y.toNat := by
  rw [BitVec.toNat_append, ← Nat.shiftLeft_add_eq_or_of_lt y.isLt, Nat.shiftLeft_eq]

theorem be32_eq_append (b0 b1 b2 b3 : Byte) : be32 b0 b1 b2 b3 = b0 ++ b1 ++ b2 ++ b3 := by
  rw [← BitVec.setWidth_eq (b0 ++ b1 ++ b2 ++ b3),
    BitVec.setWidth_append_append_append_eq_shiftLeft_setWidth_or, be32]

theorem toNat_be32 (b0 b1 b2 b3 : Byte) : (be32 b0 b1 b2 b3).toNat = bytesValue b0 b1 b2 b3 := by
  rw [be32_eq_append]
  simp only [toNat_append_eq_add, bytesValue]
  omega

theorem toNat_wordAt {n : Nat} (s : Vector Byte n) (i : Nat) (h : 4 * i + 3 < n) :
    (wordAt s i h).toNat = bytesValue s[4 * i] s[4 * i + 1] s[4 * i + 2] s[4 * i + 3] :=
  toNat_be32 _ _ _ _

/-- Settles O6: each slot is a word of its string. -/
theorem stringSlotsAreBigEndian : Obligations.StringSlotsAreBigEndian := by
  intro b
  refine ⟨fun i => ?_, fun i => ?_, fun i => ?_, ?_, ?_⟩
  · exact (congrArg BitVec.toNat (slotValue_slotOfReg b (.keyhex i))).trans (toNat_wordAt _ _ _)
  · exact (congrArg BitVec.toNat (slotValue_slotOfReg b (.key i))).trans (toNat_wordAt _ _ _)
  · exact (congrArg BitVec.toNat (slotValue_slotOfReg b (.digest i))).trans (toNat_wordAt _ _ _)
  · exact (congrArg BitVec.toNat (slotValue_slotOfReg b .digits0)).trans (toNat_wordAt _ _ _)
  · exact (congrArg BitVec.toNat (slotValue_slotOfReg b .digits1)).trans (toNat_be32 _ _ _ _)

/-- A 64-bit value is its high word above its low word. -/
theorem toNat_eq_hiWord_loWord (v : DWord) : v.toNat = (hiWord v).toNat * 2 ^ 32 + (loWord v).toNat := by
  have hlt := v.isLt
  simp only [hiWord, loWord, BitVec.toNat_setWidth, BitVec.toNat_ushiftRight, Nat.shiftRight_eq_div_pow]
  omega

/-- Settles O7: slots 4 and 5 are the two words of COUNTER, slots 6 and 7 those of NOW. -/
theorem doubleWordSlotsAreHighThenLow : Obligations.DoubleWordSlotsAreHighThenLow :=
  fun b => ⟨toNat_eq_hiWord_loWord b.counter, toNat_eq_hiWord_loWord b.now⟩

/-- Settles O9: a register of fewer than 32 bits is extended with zeros. -/
theorem numberSlotsReadTheirRegister : Obligations.NumberSlotsReadTheirRegister := by
  intro b
  refine ⟨rfl, rfl, rfl, ?offset, ?binary, ?code, fun k hk => ?reserved⟩
  case offset => exact BitVec.toNat_setWidth_of_le (b := b.offset) (by decide)
  case binary => exact BitVec.toNat_setWidth_of_le (b := b.binary) (by decide)
  case code => exact BitVec.toNat_setWidth_of_le (b := b.code) (by decide)
  case reserved =>
    obtain ⟨i, hi⟩ := exists_reserved_of_le hk
    rw [slotValue, hi, regValue]

/-! ### HostRead (20_memory R62) -/

/-- STATUS stands at slot 1 alone. -/
theorem regOfSlot_ne_status {k : Slot} (h : k ≠ 1) : regOfSlot k ≠ .status :=
  fun hk => h (regOfSlot_injective (hk.trans regOfSlot_status.symm))

/-- CMD reads 0, busy or idle. -/
theorem hostRead_cmd (b : Block) : hostRead b (slotOfReg .cmd) = 0 := by
  cases hb : b.status.busy with
  | true => exact hostRead_busy b _ (by decide) hb
  | false => rw [hostRead_idle b _ hb, slotValue_slotOfReg, regValue]

/-- What a poll shows while a command is held: BUSY and the current HZD. -/
theorem statusWord_toNat_of_busy {s : Status} (hs : StatusOk s) (busy : s.busy = true) :
    (statusWord s).toNat = 1 + 4 * s.hzd.toNat := by
  obtain ⟨_, hdone, herr⟩ := hs
  have hnotDone : s.done = false := by simpa [busy] using hdone
  simp [statusWord_toNat, busy, hnotDone, herr busy]

/-- Settles O10: the cases of a read are STATUS, any other slot while busy, and any other slot while idle. -/
theorem hostReadFollowsTheBusyRule : Obligations.HostReadFollowsTheBusyRule := by
  have hstatus (b : Block) : hostRead b 1 = statusWord b.status := hostRead_status b 1 regOfSlot_status
  refine ⟨hstatus, ?busy, ?idle, hostRead_cmd, ?poll, hostReads_block⟩
  case busy => exact fun b k hk busy => hostRead_busy b k (regOfSlot_ne_status hk) busy
  case idle => exact fun b k _ idle => hostRead_idle b k idle
  case poll => exact fun b hs busy => hstatus b ▸ statusWord_toNat_of_busy hs busy

/-! ### HostWrite (20_memory R63) -/

/-- The read-write registers of 20_memory R61; `storeReg_of_not_readWrite` and `regValue_storeReg_same` tie this to
what a store does. -/
def isReadWrite : Reg → Bool
  | .hexlen | .keylen | .counterHi | .counterLo | .nowHi | .nowLo | .keyhex _ | .key _ | .digest _ => true
  | _ => false

theorem isReadWrite_regOfSlot_iff (k : Slot) :
    isReadWrite (regOfSlot k) = true ↔ 2 ≤ k.toNat ∧ k.toNat ≤ 36 := by
  revert k
  decide

theorem storeReg_of_not_readWrite (b : Block) {r : Reg} (h : isReadWrite r = false) (v : Word) :
    storeReg b r v = b := by
  cases r with
  | cmd | status | offset | binary | code | digits0 | digits1 | reserved => rfl
  | _ => cases h

/-- A read-write register holds all 32 bits of the word stored in it. -/
theorem regValue_storeReg_same (b : Block) {r : Reg} (h : isReadWrite r = true) (v : Word) :
    regValue (storeReg b r v) r = v := by
  cases r with
  | hexlen | keylen => rfl
  | counterHi | nowHi => exact hiWord_setHiWord _ _
  | counterLo | nowLo => exact loWord_setLoWord _ _
  | keyhex i | key i | digest i => exact wordAt_setWordAt_same _ _ _ _
  | _ => cases h

/-- A store leaves the value of every other register, of the other half of a 64-bit register and of the other words of
a string too. -/
theorem regValue_storeReg_other (b : Block) {r r' : Reg} (h : r' ≠ r) (v : Word) :
    regValue (storeReg b r v) r' = regValue b r' := by
  cases r with
  | cmd | status | offset | binary | code | digits0 | digits1 | reserved => rfl
  | hexlen =>
    cases r' with
    | hexlen => exact absurd rfl h
    | _ => rfl
  | keylen =>
    cases r' with
    | keylen => exact absurd rfl h
    | _ => rfl
  | counterHi =>
    cases r' with
    | counterHi => exact absurd rfl h
    | counterLo => exact loWord_setHiWord _ _
    | _ => rfl
  | counterLo =>
    cases r' with
    | counterLo => exact absurd rfl h
    | counterHi => exact hiWord_setLoWord _ _
    | _ => rfl
  | nowHi =>
    cases r' with
    | nowHi => exact absurd rfl h
    | nowLo => exact loWord_setHiWord _ _
    | _ => rfl
  | nowLo =>
    cases r' with
    | nowLo => exact absurd rfl h
    | nowHi => exact hiWord_setLoWord _ _
    | _ => rfl
  | keyhex i =>
    cases r' with
    | keyhex j =>
      have hij : j ≠ i := fun e => h (congrArg Reg.keyhex e)
      exact wordAt_setWordAt_other b.keyhex i j v (by omega) (by omega) (Fin.val_ne_of_ne hij)
    | _ => rfl
  | key i =>
    cases r' with
    | key j =>
      have hij : j ≠ i := fun e => h (congrArg Reg.key e)
      exact wordAt_setWordAt_other b.key i j v (by omega) (by omega) (Fin.val_ne_of_ne hij)
    | _ => rfl
  | digest i =>
    cases r' with
    | digest j =>
      have hij : j ≠ i := fun e => h (congrArg Reg.digest e)
      exact wordAt_setWordAt_other b.digest i j v (by omega) (by omega) (Fin.val_ne_of_ne hij)
    | _ => rfl

/-- An idle write to a slot other than CMD stores in the register that stands there. -/
theorem hostWrite_of_ne_zero {b : Block} (idle : b.status.busy = false) {k : Slot} (hk : k ≠ 0) (v : Word) :
    hostWrite b k v = storeReg b (regOfSlot k) v :=
  hostWrite_of_ne_cmd idle (fun h => hk (eq_zero_of_regOfSlot_eq_cmd h)) v

/-- Settles O11: by the cases of `HostWrite`. -/
theorem hostWriteFollowsTheRule : Obligations.HostWriteFollowsTheRule := by
  intro b k v
  refine ⟨?busy, ?accept, ?store, ?ignore⟩
  case busy => exact fun busy => hostWrite_of_busy busy k v
  case accept =>
    rintro idle rfl
    exact hostWrite_of_cmd idle regOfSlot_cmd v
  case store =>
    intro idle hlo hhi
    have hrw : isReadWrite (regOfSlot k) = true := (isReadWrite_regOfSlot_iff k).2 ⟨hlo, hhi⟩
    obtain ⟨hstatus, _, _, _, _, hcw, hwork⟩ := storeReg_frame b (regOfSlot k) v
    rw [hostWrite_of_ne_zero idle (by rintro rfl; simp at hlo)]
    exact ⟨regValue_storeReg_same b hrw v,
      fun k' hk' => regValue_storeReg_other b (fun h => hk' (regOfSlot_injective h)) v, hstatus, hcw, hwork⟩
  case ignore =>
    intro idle hk
    have hrw : isReadWrite (regOfSlot k) = false := by
      rw [Bool.eq_false_iff, ne_eq, isReadWrite_regOfSlot_iff]
      rcases hk with rfl | hk
      · decide
      · omega
    rw [hostWrite_of_ne_zero idle (by rintro rfl; simp at hk), storeReg_of_not_readWrite b hrw]

/-! ### A placed command word -/

theorem decode_encode (i : Instr) : decode (encode i) = .ok i := by
  cases i <;> decide

/-- A 32-bit word survives its way through a table number. -/
theorem withFetchWord_toNat (s : State) (w : Word) : s.withFetchWord 32 w.toNat = placeCommand s w := by
  rw [State.withFetchWord, Nat.mod_eq_of_lt w.isLt, BitVec.ofNat_toNat, BitVec.setWidth_eq]

/-- The turn placed is the engine's, and the step uses it up. -/
theorem step_placeCommand (s : State) (w : Word) :
    step (placeCommand s w) = engineMove { s with block := acceptCommand s.block w } := rfl

/-- The engine's move is `exec` of the instruction whose word it holds. -/
theorem engineMove_of_encode {s : State} {i : Instr} (busy : s.block.status.busy = true)
    (hcw : s.block.cw = encode i) : engineMove s = exec i s := by
  rw [engineMove_of_busy busy, heldResult_of_decode_ok (hcw ▸ decode_encode i), exec_eq_finish]

/-- Settles O13: the word placed is the one the engine finds in CW. -/
theorem stepRunsThePlacedWord : Obligations.StepRunsThePlacedWord := by
  intro s i
  rw [withFetchWord_toNat, step_placeCommand]
  exact engineMove_of_encode rfl rfl

end Sys2Proof.Machine
end

