-- ==== Sys2Proof/Proofs/EncodingFamily.lean ====
section
/-! The statements about the command encoding and the host's script (30_encoding): decoding, what a command reads and
writes, and what the lines of a script do, alone and under any schedule. -/

namespace Sys2Proof.Machine

-- Elaborate each proof where it stands, not in a thread of its own, whose stack would count against the check's memory
-- limit; no other effect, as the section declares no `variable`.
set_option deprecated.oldSectionVars true

/-! ### Decoding (30_encoding R90, R91, R93, R96) -/

/-- RSV is the quotient by 256. -/
theorem wordRsv_eq_zero_iff (w : Word) : wordRsv w = 0 ↔ w.toNat < 256 := by
  have hlt := w.isLt
  rw [← BitVec.toNat_inj, show (0 : BitVec 24).toNat = 0 from rfl]
  simp only [wordRsv, BitVec.toNat_setWidth, BitVec.toNat_ushiftRight, Nat.shiftRight_eq_div_pow]
  omega

theorem decode_of_le {w : Word} (h : 256 ≤ w.toNat) : decode w = .error .reservedNotZero :=
  if_pos (mt (wordRsv_eq_zero_iff w).1 (Nat.not_lt.2 h))

theorem decode_of_lt {w : Word} (h : w.toNat < 256) : decode w = decodeOpc (wordOpc w) :=
  if_neg (not_not_intro ((wordRsv_eq_zero_iff w).2 h))

/-- With RSV zero a word is its opcode. -/
theorem wordOpc_eq_iff {w : Word} (h : w.toNat < 256) (opc : Byte) : wordOpc w = opc ↔ w = opc.setWidth 32 := by
  have hopc := opc.isLt
  rw [← BitVec.toNat_inj, ← BitVec.toNat_inj]
  simp only [wordOpc, BitVec.toNat_setWidth]
  omega

theorem decodeOpc_opcode (i : Instr) : decodeOpc (opcode i) = .ok i := by
  cases i <;> rfl

theorem decodeOpc_of_not_listed {opc : Byte} (h : ∀ i, opc ≠ opcode i) : decodeOpc opc = .error .opcodeNotListed := by
  have h1 : opc ≠ 0x01 := h .keydec
  have h2 : opc ≠ 0x02 := h .hmac
  have h3 : opc ≠ 0x03 := h .trunc
  have h4 : opc ≠ 0x04 := h .hotp
  have h5 : opc ≠ 0x05 := h .totp
  have h6 : opc ≠ 0x06 := h .zeroize
  simp only [decodeOpc, if_neg, h1, h2, h3, h4, h5, h6, not_false_eq_true]

theorem decodeOpc_eq_ok_iff (opc : Byte) (i : Instr) : decodeOpc opc = .ok i ↔ opc = opcode i := by
  constructor
  · intro h
    by_cases hlisted : ∃ j, opc = opcode j
    · obtain ⟨j, rfl⟩ := hlisted
      rw [decodeOpc_opcode] at h
      cases h
      rfl
    · rw [decodeOpc_of_not_listed (not_exists.1 hlisted)] at h
      cases h
  · rintro rfl
    exact decodeOpc_opcode i

/-- A word selects a command exactly when it is the command's word. -/
theorem decode_eq_ok_iff (w : Word) (i : Instr) : decode w = .ok i ↔ w = encode i := by
  constructor
  · intro h
    by_cases hrsv : w.toNat < 256
    · rw [decode_of_lt hrsv, decodeOpc_eq_ok_iff] at h
      exact (wordOpc_eq_iff hrsv _).1 h
    · rw [decode_of_le (Nat.not_lt.1 hrsv)] at h
      cases h
  · rintro rfl
    exact decode_encode i

/-- Settles O1: both directions are `decode_eq_ok_iff`. -/
theorem decodeIsInverseOfEncode : Obligations.DecodeIsInverseOfEncode :=
  ⟨fun i _ => decode_encode i, fun w i => (decode_eq_ok_iff w i).1⟩

theorem opcode_range (i : Instr) : 1 ≤ (opcode i).toNat ∧ (opcode i).toNat ≤ 6 := by
  cases i <;> decide

theorem decode_of_toNat_eq {w : Word} {i : Instr} (h : w.toNat = (encode i).toNat) : decode w = .ok i :=
  (decode_eq_ok_iff w i).2 (BitVec.eq_of_toNat_eq h)

/-- With RSV zero, a word outside 1 to 6 is illegal for its opcode. -/
theorem decode_of_opcode_not_listed {w : Word} (hrsv : w.toNat < 256) (h : w.toNat = 0 ∨ 7 ≤ w.toNat) :
    decode w = .error .opcodeNotListed := by
  rw [decode_of_lt hrsv]
  refine decodeOpc_of_not_listed fun i hi => ?_
  have hw : w.toNat = (opcode i).toNat := by
    rw [(wordOpc_eq_iff hrsv _).1 hi, BitVec.toNat_setWidth_of_le (by decide)]
  have hrange := opcode_range i
  omega

/-- Settles O2: RSV not zero, the six listed words, and the opcodes that are not listed. -/
theorem decodeFollowsTheOpcodeMap : Obligations.DecodeFollowsTheOpcodeMap := by
  intro w
  refine ⟨decode_of_le, fun h => decode_of_opcode_not_listed (by omega) (.inl h), ?_, ?_, ?_, ?_, ?_, ?_,
    fun hlo hhi => decode_of_opcode_not_listed (by omega) (.inr hlo)⟩ <;>
    exact fun h => decode_of_toNat_eq h

theorem wordWellFormed_iff (w : Word) : wordWellFormed w = true ↔ 1 ≤ w.toNat ∧ w.toNat ≤ 6 := by
  simp only [wordWellFormed, reservedClear, opcodeListed, Bool.and_eq_true, beq_iff_eq, decide_eq_true_eq]
  omega

theorem wordWellFormed_encode (i : Instr) : wordWellFormed (encode i) = true := by
  cases i <;> decide

/-- The six well-formed words are the words of the six commands. -/
theorem exists_encode_of_wordWellFormed {w : Word} (h : wordWellFormed w = true) : ∃ i, w = encode i := by
  obtain ⟨hlo, hhi⟩ := (wordWellFormed_iff w).1 h
  interval_cases hw : w.toNat
  · exact ⟨.keydec, BitVec.eq_of_toNat_eq hw⟩
  · exact ⟨.hmac, BitVec.eq_of_toNat_eq hw⟩
  · exact ⟨.trunc, BitVec.eq_of_toNat_eq hw⟩
  · exact ⟨.hotp, BitVec.eq_of_toNat_eq hw⟩
  · exact ⟨.totp, BitVec.eq_of_toNat_eq hw⟩
  · exact ⟨.zeroize, BitVec.eq_of_toNat_eq hw⟩

/-- Settles O3: both sides say that the word is the word of a command. -/
theorem legalWordsAreTheWellFormedOnes : Obligations.LegalWordsAreTheWellFormedOnes := by
  intro w
  simp only [decode_eq_ok_iff]
  constructor
  · rintro ⟨i, rfl⟩
    exact wordWellFormed_encode i
  · exact exists_encode_of_wordWellFormed

/-- Settles O4: the ten words, decoded. -/
theorem listedWordsDecode : Obligations.ListedWordsDecode := by
  unfold Obligations.ListedWordsDecode
  decide

/-! ### What a command writes (30_encoding R92)

Each operation of a command leaves the value of every register but those it names. -/

theorem regValue_completeBlock (r : Result) {reg : Reg} (h : reg ≠ .status) :
    regValue (completeBlock r) reg = regValue r.1 reg := by
  cases reg with
  | status => exact absurd rfl h
  | _ => rfl

theorem regValue_setKey (b : Block) (key : Vector Byte 32) (len : Word) {reg : Reg} (hkey : ∀ i, reg ≠ .key i)
    (hlen : reg ≠ .keylen) : regValue (setKey b key len) reg = regValue b reg := by
  cases reg with
  | key i => exact absurd rfl (hkey i)
  | keylen => exact absurd rfl hlen
  | _ => rfl

theorem regValue_computeDigest (b : Block) {reg : Reg} (h : ∀ i, reg ≠ .digest i) :
    regValue (computeDigest b) reg = regValue b reg := by
  cases reg with
  | digest i => exact absurd rfl (h i)
  | _ => rfl

theorem regValue_clearDigest (b : Block) {reg : Reg} (h : ∀ i, reg ≠ .digest i) :
    regValue (clearDigest b) reg = regValue b reg := by
  cases reg with
  | digest i => exact absurd rfl (h i)
  | _ => rfl

theorem regValue_truncate (b : Block) {reg : Reg} (h : writesSlot.isCodeReg reg = false) :
    regValue (truncate b) reg = regValue b reg := by
  cases reg with
  | offset | binary | code | digits0 | digits1 => cases h
  | _ => rfl

theorem regValue_clearCode (b : Block) {reg : Reg} (h : writesSlot.isCodeReg reg = false) :
    regValue (clearCode b) reg = regValue b reg := by
  cases reg with
  | offset | binary | code | digits0 | digits1 => cases h
  | _ => rfl

theorem regValue_setTotpCounter (b : Block) {reg : Reg} (hhi : reg ≠ .counterHi) (hlo : reg ≠ .counterLo) :
    regValue (setTotpCounter b) reg = regValue b reg := by
  cases reg with
  | counterHi => exact absurd rfl hhi
  | counterLo => exact absurd rfl hlo
  | _ => rfl

theorem regValue_runHotp (b : Block) {reg : Reg} (hdigest : ∀ i, reg ≠ .digest i)
    (hcode : writesSlot.isCodeReg reg = false) : regValue (runHotp b).1 reg = regValue b reg := by
  rcases runHotp_cases b with ⟨_, h⟩ | ⟨_, h⟩ <;> rw [h]
  · exact (regValue_truncate _ hcode).trans (regValue_computeDigest b hdigest)
  · exact (regValue_clearCode _ hcode).trans (regValue_clearDigest b hdigest)

/-- HOTP and TOTP list OFFSET, BINARY, CODE and DIGITS among what they write. -/
theorem isCodeReg_eq_false_of_writesSlot {i : Instr} {k : Slot} (hi : i = .hotp ∨ i = .totp)
    (h : writesSlot i k = false) : writesSlot.isCodeReg (regOfSlot k) = false := by
  cases hr : regOfSlot k with
  | offset | binary | code | digits0 | digits1 =>
    rcases hi with rfl | rfl <;> simp [writesSlot, writesSlot.isCodeReg, hr] at h
  | _ => rfl

/-- The registers of the slots that the table of operands does not list keep their value. -/
theorem regValue_commandResult {i : Instr} {k : Slot} (h : writesSlot i k = false) (b : Block) :
    regValue (commandResult i b).1 (regOfSlot k) = regValue b (regOfSlot k) := by
  have hne {r : Reg} (hr : writesSlot i (slotOfReg r) = true) : regOfSlot k ≠ r := by
    rintro rfl
    rw [slotOfReg_regOfSlot, h] at hr
    cases hr
  cases i with
  | keydec =>
    have hkey (j : Fin 8) : regOfSlot k ≠ .key j := hne (by simp [writesSlot])
    have hlen : regOfSlot k ≠ .keylen := hne rfl
    rcases runKeydec_cases b with ⟨_, hr⟩ | ⟨_, hr⟩ <;> rw [commandResult, hr] <;>
      exact regValue_setKey b _ _ hkey hlen
  | hmac =>
    have hdigest (j : Fin 5) : regOfSlot k ≠ .digest j := hne (by simp [writesSlot])
    rcases runHmac_cases b with ⟨_, hr⟩ | ⟨_, hr⟩ <;> rw [commandResult, hr]
    · exact regValue_computeDigest b hdigest
    · exact regValue_clearDigest b hdigest
  | trunc => exact regValue_truncate b h
  | hotp =>
    exact regValue_runHotp b (fun j => hne (by simp [writesSlot])) (isCodeReg_eq_false_of_writesSlot (.inl rfl) h)
  | totp =>
    exact (regValue_runHotp (setTotpCounter b) (fun j => hne (by simp [writesSlot]))
      (isCodeReg_eq_false_of_writesSlot (.inr rfl) h)).trans (regValue_setTotpCounter b (hne rfl) (hne rfl))
  | zeroize => cases h

theorem commandResult_cw (i : Instr) (b : Block) : (commandResult i b).1.cw = b.cw := by
  cases i with
  | keydec => rcases runKeydec_cases b with ⟨_, h⟩ | ⟨_, h⟩ <;> simp [commandResult, h]
  | hmac => rcases runHmac_cases b with ⟨_, h⟩ | ⟨_, h⟩ <;> simp [commandResult, h]
  | trunc => rfl
  | hotp => rcases runHotp_cases b with ⟨_, h⟩ | ⟨_, h⟩ <;> simp [commandResult, h]
  | totp => rcases runTotp_cases b with ⟨_, h⟩ | ⟨_, h⟩ <;> simp [commandResult, h]
  | zeroize => rfl

/-- KEYDEC and TRUNC do not run HMAC8. -/
theorem commandResult_work {i : Instr} (hi : i = .keydec ∨ i = .trunc) (b : Block) :
    (commandResult i b).1.work = b.work := by
  rcases hi with rfl | rfl
  · rcases runKeydec_cases b with ⟨_, h⟩ | ⟨_, h⟩ <;> simp [commandResult, h]
  · rfl

/-- Settles O33: completion writes STATUS, and the command its listed registers. -/
theorem commandsWriteOnlyTheirOutputs : Obligations.CommandsWriteOnlyTheirOutputs := by
  intro i s
  refine ⟨_, exec_eq_finish i s, fun k hk hw => ?_, rfl, rfl, ?_, ?_, rfl, rfl, fun hi => ?_⟩
  · exact (regValue_completeBlock _ (regOfSlot_ne_status hk)).trans (regValue_commandResult hw s.block)
  · exact (congrArg Status.hzd (commandResult_status i s.block) :)
  · exact commandResult_cw i s.block
  · exact commandResult_work hi s.block

/-! ### What a command reads (30_encoding R92) -/

theorem runKeydec_congr {b c : Block} (hlen : b.hexlen = c.hexlen) (hhex : b.keyhex = c.keyhex) :
    (runKeydec b).1.key = (runKeydec c).1.key ∧ (runKeydec b).1.keylen = (runKeydec c).1.keylen ∧
      (runKeydec b).2 = (runKeydec c).2 := by
  have hok : keyStringOk b = keyStringOk c := by rw [keyStringOk, keyStringOk, hlen, hhex]
  rw [runKeydec, runKeydec, hok]
  split
  · simp [hhex]
  · simp

theorem keyLengthOk_congr {b c : Block} (hlen : b.keylen = c.keylen) : keyLengthOk b = keyLengthOk c := by
  rw [keyLengthOk, keyLengthOk, hlen]

theorem runHmac_congr {b c : Block} (hlen : b.keylen = c.keylen) (hkey : b.key = c.key)
    (hcounter : b.counter = c.counter) :
    (runHmac b).1.digest = (runHmac c).1.digest ∧ (runHmac b).2 = (runHmac c).2 := by
  rw [runHmac, runHmac, keyLengthOk_congr hlen]
  split
  · simp [hkey, hcounter]
  · simp

theorem truncate_congr {b c : Block} (h : b.digest = c.digest) : SameCode (truncate b) (truncate c) := by
  simp [SameCode, h]

theorem runHotp_congr {b c : Block} (hlen : b.keylen = c.keylen) (hkey : b.key = c.key)
    (hcounter : b.counter = c.counter) :
    (runHotp b).1.digest = (runHotp c).1.digest ∧ SameCode (runHotp b).1 (runHotp c).1 ∧
      (runHotp b).2 = (runHotp c).2 := by
  have hdigest : (computeDigest b).digest = (computeDigest c).digest := by simp [hkey, hcounter]
  rw [runHotp, runHotp, keyLengthOk_congr hlen]
  split
  · exact ⟨hdigest, truncate_congr hdigest, rfl⟩
  · exact ⟨rfl, ⟨rfl, rfl, rfl, rfl⟩, rfl⟩

/-- HOTP leaves COUNTER. -/
theorem runHotp_counter (b : Block) : (runHotp b).1.counter = b.counter := by
  rcases runHotp_cases b with ⟨_, h⟩ | ⟨_, h⟩ <;> simp [h]

/-- Settles O34: the result of each command, and so the completed block, follows from its operands. -/
theorem commandsDependOnlyOnTheirOperands : Obligations.CommandsDependOnlyOnTheirOperands := by
  intro s t
  refine ⟨fun hlen hhex => ?keydec, fun hlen hkey hcounter => ?hmac, fun hdigest => ?trunc,
    fun hlen hkey hcounter => ?hotp, fun hlen hkey hnow => ?totp⟩
  case keydec =>
    obtain ⟨hkey, hkeylen, herr⟩ := runKeydec_congr hlen hhex
    exact ⟨_, _, rfl, rfl, hkey, hkeylen, congrArg errField herr⟩
  case hmac =>
    obtain ⟨hdigest, herr⟩ := runHmac_congr hlen hkey hcounter
    exact ⟨_, _, rfl, rfl, hdigest, congrArg errField herr⟩
  case trunc => exact ⟨_, _, rfl, rfl, truncate_congr hdigest, rfl⟩
  case hotp =>
    obtain ⟨hdigest, hcode, herr⟩ := runHotp_congr hlen hkey hcounter
    exact ⟨_, _, rfl, rfl, hdigest, hcode, congrArg errField herr⟩
  case totp =>
    have hstep : (setTotpCounter s.block).counter = (setTotpCounter t.block).counter := congrArg totpCounter hnow
    obtain ⟨hdigest, hcode, herr⟩ := runHotp_congr (b := setTotpCounter s.block) (c := setTotpCounter t.block)
      hlen hkey hstep
    have hcounter : (runTotp s.block).1.counter = (runTotp t.block).1.counter := by
      rw [runTotp, runTotp, runHotp_counter, runHotp_counter, hstep]
    exact ⟨_, _, rfl, rfl, hcounter, hdigest, hcode, congrArg errField herr⟩

/-! ### The engine's turn (30_encoding R97) -/

theorem step_of_engineMoves {s : State} (h : EngineMoves s) : step s = engineMove (takeTurn s) := by
  simp only [step, (nextAgent_eq_engine_iff s).2 h]

/-- Settles O12: the held word is decoded and its command completes. -/
theorem stepCompletesTheHeldCommand : Obligations.StepCompletesTheHeldCommand := by
  intro s i hmoves busy hdecode
  have hcw : s.block.cw = encode i := (decode_eq_ok_iff _ i).1 hdecode
  exact (step_of_engineMoves hmoves).trans (engineMove_of_encode (s := takeTurn s) busy hcw)

/-- Settles O15: the engine has no command to complete. -/
theorem engineTurnWhileIdleDoesNothing : Obligations.EngineTurnWhileIdleDoesNothing :=
  fun s hturn idle => (step_of_engineMoves (.inl hturn)).trans (engineMove_of_idle (s := takeTurn s) idle)

/-! ### The host's turn (30_encoding R95) -/

theorem step_of_hostMoves {s : State} (h : HostMoves s) : step s = .next (hostMove (takeTurn s)) := by
  simp only [step, (nextAgent_eq_host_iff s).2 h]

theorem hostMove_done {s : State} (h : s.host.script = .done) : hostMove s = s := by
  simp [hostMove, h]

theorem hostMove_wr {s : State} {k : Slot} {v : Word} {rest : Script} (h : s.host.script = .wr k v rest) :
    hostMove s = setScript (hostWrites s k v) rest := by
  simp [hostMove, h]

theorem hostMove_rd {s : State} {k : Slot} {rest : Script} (h : s.host.script = .rd k rest) :
    hostMove s = setScript (hostReads s k) rest := by
  simp [hostMove, h]

theorem hostMove_wait_of_busy {s : State} {rest : Script} (h : s.host.script = .wait rest)
    (busy : s.block.status.busy = true) : hostMove s = hostReads s (slotOfReg .status) := by
  simp [hostMove, h, pollSaysIdle_status, busy]

theorem hostMove_wait_of_idle {s : State} {rest : Script} (h : s.host.script = .wait rest)
    (idle : s.block.status.busy = false) : hostMove s = setScript (hostReads s (slotOfReg .status)) rest := by
  simp [hostMove, h, pollSaysIdle_status, idle]

theorem hostMove_ifThen {s : State} {c : Cond} {a b rest : Script} (h : s.host.script = .ifThen c a b rest) :
    hostMove s = setScript s ((if condHolds c s.host.reads then a else b).append rest) := by
  simp [hostMove, h]

/-- Settles O18: each line, performed on the state with the turn used up. -/
theorem hostLinesAct : Obligations.HostLinesAct := by
  intro s k v c a b rest hmoves
  rw [step_of_hostMoves hmoves]
  refine ⟨fun h => ?wr, fun h => ?rd, fun h busy => ?poll, fun h idle => ?waited, fun h => ?branch, fun h => ?done⟩
  case wr => rw [hostMove_wr (s := takeTurn s) h]; rfl
  case rd => rw [hostMove_rd (s := takeTurn s) h]; rfl
  case poll => rw [hostMove_wait_of_busy (s := takeTurn s) h busy]; rfl
  case waited => rw [hostMove_wait_of_idle (s := takeTurn s) h idle]; rfl
  case branch => rw [hostMove_ifThen (s := takeTurn s) h]; rfl
  case done => rw [hostMove_done (s := takeTurn s) h]; rfl

/-! ### Scripts that wait (30_encoding R98) -/

/-- A line that accesses a slot may be performed only while no command is held. -/
theorem ProtocolInv.of_wr {s : State} (h : ProtocolInv s) {k : Slot} {v : Word} {rest : Script}
    (line : s.host.script = .wr k v rest) :
    s.block.status.busy = false ∧ (waitOwed rest (k == slotOfReg .cmd)).isSome = true := by
  cases hb : s.block.status.busy <;> simp_all [ProtocolInv, waitOwed]

theorem ProtocolInv.of_rd {s : State} (h : ProtocolInv s) {k : Slot} {rest : Script}
    (line : s.host.script = .rd k rest) :
    s.block.status.busy = false ∧ (waitOwed rest false).isSome = true := by
  cases hb : s.block.status.busy <;> simp_all [ProtocolInv, waitOwed]

theorem ProtocolInv.of_wait {s : State} (h : ProtocolInv s) {rest : Script} (line : s.host.script = .wait rest) :
    (waitOwed rest false).isSome = true := by
  simpa [ProtocolInv, line, waitOwed] using h

/-- Every branch of an IF is walked, and what either leaves owed is owed after it. -/
theorem waitOwed_branch {c : Cond} {a b rest : Script} {owed : Bool}
    (h : (waitOwed (.ifThen c a b rest) owed).isSome = true) (p : Bool) :
    (waitOwed ((if p then a else b).append rest) owed).isSome = true := by
  rw [waitOwed_append]
  simp only [waitOwed] at h
  cases ha : waitOwed a owed with
  | none => cases hb : waitOwed b owed <;> simp [ha, hb] at h
  | some x =>
    cases hb : waitOwed b owed with
    | none => simp [ha, hb] at h
    | some y =>
      simp only [ha, hb] at h
      cases p with
      | true => simpa [ha] using waitOwed_less rest h (by simp +contextual)
      | false => simpa [hb] using waitOwed_less rest h (by simp +contextual)

/-- An idle write makes the block busy at CMD alone. -/
theorem busy_hostWrite_of_idle {b : Block} (idle : b.status.busy = false) (k : Slot) (v : Word) :
    (hostWrite b k v).status.busy = (k == slotOfReg .cmd) := by
  by_cases hk : regOfSlot k = .cmd
  · obtain rfl : k = slotOfReg .cmd := regOfSlot_injective (hk.trans regOfSlot_cmd.symm)
    simp [hostWrite_of_cmd idle hk]
  · have hne : k ≠ slotOfReg .cmd := by
      rintro rfl
      exact hk regOfSlot_cmd
    simp [hostWrite_of_ne_cmd idle hk, idle, hne]

theorem hzd_hostWrite_of_idle {b : Block} (idle : b.status.busy = false) (k : Slot) (v : Word) :
    (hostWrite b k v).status.hzd = b.status.hzd := by
  rcases hostWrite_cases b k v with ⟨busy, _⟩ | ⟨_, _, h⟩ | ⟨_, _, h⟩
  · simp [idle] at busy
  · simp [h]
  · simp [h]

theorem ProtocolInv.hostMove {s : State} (h : ProtocolInv s) : ProtocolInv (hostMove s) := by
  cases line : s.host.script with
  | done => exact (hostMove_done line).symm ▸ h
  | wr k v rest =>
    obtain ⟨idle, hrest⟩ := h.of_wr line
    rw [hostMove_wr line]
    simpa [ProtocolInv, busy_hostWrite_of_idle idle] using hrest
  | rd k rest =>
    obtain ⟨idle, hrest⟩ := h.of_rd line
    rw [hostMove_rd line]
    simpa [ProtocolInv, idle] using hrest
  | wait rest =>
    cases hb : s.block.status.busy with
    | true =>
      rw [hostMove_wait_of_busy line hb]
      exact h
    | false =>
      rw [hostMove_wait_of_idle line hb]
      simpa [ProtocolInv, hb] using h.of_wait line
  | ifThen c a b rest =>
    rw [hostMove_ifThen line]
    rw [ProtocolInv, line] at h
    exact waitOwed_branch h _

theorem ProtocolInv.hzd_hostMove {s : State} (h : ProtocolInv s) :
    (Machine.hostMove s).block.status.hzd = s.block.status.hzd := by
  rcases hostMove_block s with hblock | ⟨k, v, rest, line, hblock⟩ <;> rw [hblock]
  exact hzd_hostWrite_of_idle (h.of_wr line).1 k v

/-- A command that is no longer held leaves nothing owed. -/
theorem ProtocolInv.of_idle {s t : State} (h : ProtocolInv s) (hhost : t.host = s.host)
    (idle : t.block.status.busy = false) : ProtocolInv t := by
  rw [ProtocolInv, hhost, idle]
  exact waitOwed_less _ h (by simp)

/-- Whoever moves, the rest of the script waits as before, and HZD does not rise. -/
theorem ProtocolInv.step {s t : State} (h : ProtocolInv s) (hstep : step s = .next t) :
    ProtocolInv t ∧ (t.block.status.hzd = true → s.block.status.hzd = true) := by
  have hturn : ProtocolInv (takeTurn s) := h
  rcases step_cases s with ⟨_, hs⟩ | ⟨_, hs⟩ | ⟨_, hs⟩ <;> rw [hs] at hstep
  · cases hstep
    exact ⟨hturn.of_idle rfl rfl, fun hset => by cases hset⟩
  · cases hb : s.block.status.busy with
    | false =>
      rw [engineMove_of_idle (s := takeTurn s) hb] at hstep
      cases hstep
      exact ⟨hturn, id⟩
    | true =>
      rw [engineMove_of_busy (s := takeTurn s) hb] at hstep
      cases hstep
      exact ⟨hturn.of_idle rfl rfl, fun hset => by simpa using hset⟩
  · cases hstep
    exact ⟨hturn.hostMove, fun hset => by simpa [hturn.hzd_hostMove] using hset⟩

/-- While a command is held, the next line is none that `allowedWhileOwed` forbids. -/
theorem ProtocolInv.allowedWhileOwed {s : State} (h : ProtocolInv s) (busy : s.block.status.busy = true) :
    allowedWhileOwed s.host.script = true := by
  cases line : s.host.script with
  | wr k v rest => simp [(h.of_wr line).1] at busy
  | rd k rest => simp [(h.of_rd line).1] at busy
  | done | wait | ifThen => rfl

/-- Settles O60: a step keeps `ProtocolInv`, which leaves reads and writes to an idle block. -/
theorem waitingScriptsKeepTheProtocol : Obligations.WaitingScriptsKeepTheProtocol := by
  refine ⟨fun s t h hstep => h.step hstep, fun s h _ busy => h.allowedWhileOwed busy, fun s k rest h hmoves line => ?_⟩
  rw [step_of_hostMoves hmoves, hostMove_rd (s := takeTurn s) line, ← hostRead_idle s.block k (h.of_rd line).1]
  rfl

/-! ### The end of a run (30_encoding R98)

What a waiting script leaves is computed without a schedule, each command completing where it is written; a step of a
run leaves the result of this computation as it is. -/

/-- The block once the held command, if any, has completed. -/
def settled (b : Block) : Block := if b.status.busy then completeBlock (heldResult b) else b

theorem settled_of_idle {b : Block} (idle : b.status.busy = false) : settled b = b := by
  simp [settled, idle]

theorem settled_of_busy {b : Block} (busy : b.status.busy = true) : settled b = completeBlock (heldResult b) := by
  simp [settled, busy]

/-- The word read last and the block, after a script performed from them on an idle block with every command completing
at once; `endBlock_step` ties it to `step`. -/
def scriptEnd : Script → Option Word × Block → Option Word × Block
  | .done, x => x
  | .wr k v rest, x => scriptEnd rest (x.1, settled (hostWrite x.2 k v))
  | .rd k rest, x => scriptEnd rest (some (hostRead x.2 k), x.2)
  | .wait rest, x => scriptEnd rest (some (hostRead x.2 (slotOfReg .status)), x.2)
  | .ifThen c a b rest, x => scriptEnd rest (if condHolds c x.1.toList then scriptEnd a x else scriptEnd b x)

theorem scriptEnd_append (s t : Script) (x : Option Word × Block) :
    scriptEnd (s.append t) x = scriptEnd t (scriptEnd s x) := by
  induction s generalizing x with
  | done => rfl
  | wr k v rest ih => exact ih _
  | rd k rest ih => exact ih _
  | wait rest ih => exact ih _
  | ifThen c a b rest _ _ ih => exact ih _

/-- The block the rest of the host's script leaves. -/
def endBlock (s : State) : Block := (scriptEnd s.host.script (s.host.reads.head?, settled s.block)).2

theorem endBlock_of_finished {s : State} (h : Finished s) : endBlock s = s.block := by
  obtain ⟨hscript, idle⟩ := h
  rw [endBlock, hscript, settled_of_idle idle, scriptEnd]

/-- A condition tests the word read last and no other. -/
theorem condHolds_head? (c : Cond) (reads : List Word) : condHolds c reads.head?.toList = condHolds c reads := by
  cases reads <;> rfl

theorem endBlock_engineMove {s t : State} (h : engineMove s = .next t) : endBlock t = endBlock s := by
  cases hb : s.block.status.busy with
  | false =>
    rw [engineMove_of_idle hb] at h
    cases h
    rfl
  | true =>
    rw [engineMove_of_busy hb] at h
    cases h
    rw [endBlock, endBlock, settled_of_busy hb, settled_of_idle rfl]

/-- A poll while a command is held is the one read whose word depends on the schedule, and the poll that ends the WAIT
replaces it. -/
theorem endBlock_hostMove {s : State} (h : ProtocolInv s) : endBlock (hostMove s) = endBlock s := by
  cases line : s.host.script with
  | done => rw [hostMove_done line]
  | wr k v rest =>
    simp [hostMove_wr line, endBlock, line, scriptEnd, settled_of_idle (h.of_wr line).1]
  | rd k rest =>
    simp [hostMove_rd line, endBlock, line, scriptEnd, settled_of_idle (h.of_rd line).1]
  | wait rest =>
    cases hb : s.block.status.busy with
    | true => simp [hostMove_wait_of_busy line hb, endBlock, line, scriptEnd]
    | false => simp [hostMove_wait_of_idle line hb, endBlock, line, scriptEnd, settled_of_idle hb]
  | ifThen c a b rest =>
    simp only [hostMove_ifThen line, endBlock, line, scriptEnd, setScript_host, setScript_block, scriptEnd_append,
      condHolds_head?]
    split <;> rfl

/-- The engine places and takes no turn. -/
theorem engineMove_turns {s t : State} (h : engineMove s = .next t) : t.turns = s.turns := by
  cases hb : s.block.status.busy with
  | false =>
    rw [engineMove_of_idle hb] at h
    cases h
    rfl
  | true =>
    rw [engineMove_of_busy hb] at h
    cases h
    rfl

theorem endBlock_step {s t : State} (h : ProtocolInv s) (hturns : NoReset s.turns) (hstep : step s = .next t) :
    endBlock t = endBlock s ∧ ProtocolInv t ∧ NoReset t.turns := by
  have htail : NoReset s.turns.tail := fun hmem => hturns (List.mem_of_mem_tail hmem)
  have hinv : ProtocolInv t := (h.step hstep).1
  rcases step_cases s with ⟨agent, hs⟩ | ⟨_, hs⟩ | ⟨_, hs⟩
  · exact absurd (List.mem_of_mem_head? ((nextAgent_eq_environment_iff s).1 agent)) hturns
  · rw [hs] at hstep
    refine ⟨(endBlock_engineMove hstep : _ = endBlock (takeTurn s)), hinv, ?_⟩
    rwa [engineMove_turns hstep]
  · rw [hs] at hstep
    cases hstep
    refine ⟨(endBlock_hostMove (s := takeTurn s) h : _ = endBlock (takeTurn s)), hinv, ?_⟩
    rwa [hostMove_turns]

theorem endBlock_run {n : Nat} {s t : State} (h : ProtocolInv s) (hturns : NoReset s.turns)
    (hrun : Sys2Proof.core.run n s = .next t) : endBlock t = endBlock s := by
  induction n generalizing s with
  | zero =>
    cases hrun
    rfl
  | succ n ih =>
    obtain ⟨u, hstep, _⟩ := step_transition s
    rw [run_succ hstep] at hrun
    obtain ⟨hend, hinv, hu⟩ := endBlock_step h hturns hstep
    exact (ih hinv hu hrun).trans hend

/-- Settles O58: both runs end with the block computed from their common start. -/
theorem endStateIgnoresTheSchedule : Obligations.EndStateIgnoresTheSchedule := by
  intro s t m n s' t' hs hsturns htturns hblock hhost hsrun htrun hs' ht'
  have ht : ProtocolInv t := by rwa [ProtocolInv, ← hblock, ← hhost]
  calc s'.block = endBlock s' := (endBlock_of_finished hs').symm
    _ = endBlock s := endBlock_run hs hsturns hsrun
    _ = endBlock t := by rw [endBlock, endBlock, hblock, hhost]
    _ = endBlock t' := (endBlock_run ht htturns htrun).symm
    _ = t'.block := endBlock_of_finished ht'

/-! ### The load lines (30_encoding R95) -/

/-- A `WR` line on an idle block, with no turn placed, stores its word. -/
theorem step_lineWr {s : State} (idle : s.block.status.busy = false) (hturns : s.turns = []) {r : Reg} (hr : r ≠ .cmd)
    {v : Word} {rest : Script} (line : s.host.script = lineWr r v rest) :
    step s = .next { s with block := storeReg s.block r v, host := { s.host with script := rest } } := by
  have hslot : regOfSlot (slotOfReg r) ≠ .cmd := by rwa [regOfSlot_slotOfReg]
  rw [step_of_hostMoves (.inr ⟨hturns, idle⟩), hostMove_wr (s := takeTurn s) line]
  simp [setScript, hostWrites, takeTurn, hostWrite_of_ne_cmd idle hslot, hturns]

/-- A row of `WR` lines, one step each. -/
theorem run_lineWr_foldr {α : Type} {reg : α → Reg} (hreg : ∀ i, reg i ≠ .cmd) (val : α → Word) (l : List α) (m : Nat)
    {s : State} (idle : s.block.status.busy = false) (hturns : s.turns = []) {rest : Script}
    (line : s.host.script = l.foldr (fun i t => lineWr (reg i) (val i) t) rest) :
    Sys2Proof.core.run (m + l.length) s = Sys2Proof.core.run m { s with
      block := l.foldl (fun b i => storeReg b (reg i) (val i)) s.block
      host := { s.host with script := rest } } := by
  induction l generalizing s with
  | nil =>
    simp only [List.foldr_nil] at line
    simp [← line]
  | cons i l ih =>
    rw [List.length_cons, ← Nat.add_assoc, run_succ (step_lineWr idle hturns (hreg i) line)]
    exact ih (s := { s with block := storeReg s.block (reg i) (val i), host := _ })
      ((congrArg Status.busy (storeReg_status _ _ _)).trans idle) hturns rfl

/-- The string `u` with word `i` of `v` copied into it: what storing that word in its register does
(`StringRegs.store`). -/
def copyWord {m : Nat} (v u : Vector Byte (4 * m)) (i : Fin m) : Vector Byte (4 * m) :=
  setWordAt u i.val (wordAt v i.val (by omega)) (by omega)

theorem wordByte_wordAt {n : Nat} (v : Vector Byte n) (i : Nat) (h : 4 * i + 3 < n) (j : Nat) (hj : j < 4) :
    wordByte (wordAt v i h) j = v[4 * i + j] := by
  obtain ⟨h0, h1, h2, h3⟩ := wordByte_be32 v[4 * i] v[4 * i + 1] v[4 * i + 2] v[4 * i + 3]
  interval_cases j <;> assumption

theorem getElem_copyWord {m : Nat} (v u : Vector Byte (4 * m)) (i : Fin m) (j : Nat) (hj : j < 4 * m) :
    (copyWord v u i)[j] = if j / 4 = i.val then v[j] else u[j] := by
  rw [copyWord, getElem_setWordAt]
  split
  · rw [wordByte_wordAt v _ _ _ (by omega)]
    congr 1
    omega
  · rfl

/-- Copying words one after the other copies their bytes and no other. -/
theorem getElem_foldl_copyWord {m : Nat} (v u : Vector Byte (4 * m)) (l : List (Fin m)) (j : Nat) (hj : j < 4 * m) :
    (l.foldl (copyWord v) u)[j] = if ∃ i ∈ l, j / 4 = i.val then v[j] else u[j] := by
  induction l generalizing u with
  | nil => simp
  | cons i l ih =>
    rw [List.foldl_cons, ih, getElem_copyWord]
    by_cases hi : j / 4 = i.val <;> simp [hi]

/-- Copying every word copies the string. -/
theorem foldl_copyWord_finRange {m : Nat} (v u : Vector Byte (4 * m)) :
    (List.finRange m).foldl (copyWord v) u = v := by
  ext j hj
  rw [getElem_foldl_copyWord, if_pos ⟨⟨j / 4, by omega⟩, List.mem_finRange _, rfl⟩]

/-- The registers `reg` hold, a word each, the string that `put` replaces in a block. -/
structure StringRegs (m : Nat) (reg : Fin m → Reg) (put : Block → Vector Byte (4 * m) → Block) : Prop where
  ne_cmd : ∀ i, reg i ≠ .cmd
  exists_put : ∀ b, ∃ u, put b u = b
  status : ∀ b u, (put b u).status = b.status
  store : ∀ b v u i, storeReg (put b u) (reg i) (wordAt v i.val (by omega)) = put b (copyWord v u i)

theorem stringRegs_key : StringRegs 8 .key fun b u => { b with key := u } :=
  ⟨by simp, fun b => ⟨b.key, rfl⟩, fun _ _ => rfl, fun _ _ _ _ => rfl⟩

theorem stringRegs_keyhex : StringRegs 16 .keyhex fun b u => { b with keyhex := u } :=
  ⟨by simp, fun b => ⟨b.keyhex, rfl⟩, fun _ _ => rfl, fun _ _ _ _ => rfl⟩

theorem stringRegs_digest : StringRegs 5 .digest fun b u => { b with digest := u } :=
  ⟨by simp, fun b => ⟨b.digest, rfl⟩, fun _ _ => rfl, fun _ _ _ _ => rfl⟩

/-- The lines that write a string to its registers in order, and then `rest`. -/
def lineString {m : Nat} (reg : Fin m → Reg) (v : Vector Byte (4 * m)) (rest : Script) : Script :=
  (List.finRange m).foldr (fun i t => lineWr (reg i) (wordAt v i.val (by omega)) t) rest

theorem lineLdkey_eq (k : Vector Byte 32) (rest : Script) :
    lineLdkey k rest = lineString (m := 8) .key k (lineWr .keylen Config.keyBytes rest) := rfl

theorem lineLdhex_eq (text : List Byte) (rest : Script) :
    lineLdhex text rest = lineString (m := 16) .keyhex (Vector.ofFn fun i => text.getD i.val 0)
      (lineWr .hexlen (BitVec.ofNat 32 text.length) rest) := rfl

theorem lineLddigest_eq (d : Vector Byte 20) (rest : Script) :
    lineLddigest d rest = lineString (m := 5) .digest d rest := rfl

/-- Storing the words of a string, one after the other, in its registers. -/
theorem StringRegs.foldl_storeReg {m : Nat} {reg : Fin m → Reg} {put : Block → Vector Byte (4 * m) → Block}
    (h : StringRegs m reg put) (b : Block) (v : Vector Byte (4 * m)) :
    (List.finRange m).foldl (fun b i => storeReg b (reg i) (wordAt v i.val (by omega))) b = put b v := by
  obtain ⟨u, hu⟩ := h.exists_put b
  calc
    _ = (List.finRange m).foldl (fun b i => storeReg b (reg i) (wordAt v i.val (by omega))) (put b u) := by rw [hu]
    _ = put b ((List.finRange m).foldl (copyWord v) u) := List.foldl_hom (put b) (h.store b v)
    _ = put b v := by rw [foldl_copyWord_finRange]

/-- The lines that write a string, one step a word. -/
theorem StringRegs.run_lineString {m : Nat} {reg : Fin m → Reg} {put : Block → Vector Byte (4 * m) → Block}
    (h : StringRegs m reg put) (v : Vector Byte (4 * m)) (n : Nat) {s : State} (idle : s.block.status.busy = false)
    (hturns : s.turns = []) {rest : Script} (line : s.host.script = lineString reg v rest) :
    Sys2Proof.core.run (n + m) s =
      Sys2Proof.core.run n { s with block := put s.block v, host := { s.host with script := rest } } := by
  have hrun := run_lineWr_foldr h.ne_cmd (fun i => wordAt v i.val (by omega)) (List.finRange m) n idle hturns line
  rwa [List.length_finRange, h.foldl_storeReg] at hrun

/-- The lines that write a string, and one more `WR`. -/
theorem StringRegs.run_lineString_lineWr {m : Nat} {reg : Fin m → Reg} {put : Block → Vector Byte (4 * m) → Block}
    (h : StringRegs m reg put) (v : Vector Byte (4 * m)) {s : State} (idle : s.block.status.busy = false)
    (hturns : s.turns = []) {r : Reg} (hr : r ≠ .cmd) {w : Word} {rest : Script}
    (line : s.host.script = lineString reg v (lineWr r w rest)) :
    Sys2Proof.core.run (1 + m) s =
      .next { s with block := storeReg (put s.block v) r w, host := { s.host with script := rest } } := by
  have hstep := step_lineWr
    (s := { s with block := put s.block v, host := { s.host with script := lineWr r w rest } })
    (h.status s.block v ▸ idle) hturns hr rfl
  exact (h.run_lineString v 1 idle hturns line).trans (run_succ hstep)

/-- Settles O59: a string's words one after the other, and then, but for DIGEST, its length. -/
theorem loadLinesFillTheirRegisters : Obligations.LoadLinesFillTheirRegisters := by
  intro s rest idle hturns
  refine ⟨fun key line => ?key, fun text line => ?text, fun digest line => ?digest⟩
  case key =>
    rw [lineLdkey_eq] at line
    exact stringRegs_key.run_lineString_lineWr key idle hturns (by simp) line
  case text =>
    rw [lineLdhex_eq] at line
    exact stringRegs_keyhex.run_lineString_lineWr _ idle hturns (by simp) line
  case digest =>
    rw [lineLddigest_eq] at line
    exact stringRegs_digest.run_lineString digest 0 idle hturns line

end Sys2Proof.Machine
end

