-- ==== Sys2Proof/Proofs/KeyCodecFamily.lean ====
section
/-! The statements about the hex key decoder (40_keycodec). What `isHex` and `nib` say of a byte in numbers ties them to
`hexDigitValue`, by which the statements read a digit; KEYDEC on a valid and on any other key string is then said once,
and a valid string that comes from `encodeHex` is one more case of it. -/

namespace Sys2Proof.Machine

-- Elaborate each proof where it stands, not in a thread of its own, whose stack would count against the check's memory
-- limit; no other effect, as the section declares no `variable`.
set_option deprecated.oldSectionVars true

/-! ### The digits (40_keycodec R110, R111) -/

/-- The hex digits are the three ranges '0' to '9', 'A' to 'F' and 'a' to 'f'. -/
theorem isHex_iff (c : Byte) :
    isHex c = true ↔
      (48 ≤ c.toNat ∧ c.toNat ≤ 57) ∨ (65 ≤ c.toNat ∧ c.toNat ≤ 70) ∨ (97 ≤ c.toNat ∧ c.toNat ≤ 102) := by
  simp [isHex, BitVec.le_def, or_assoc]

/-- Settles O19: the 22 values fill the three ranges. -/
theorem hexDigitsAreTheTwentyTwo : Obligations.HexDigitsAreTheTwentyTwo := by
  intro c
  simp only [isHex_iff, List.mem_cons, List.not_mem_nil, or_false, ← BitVec.toNat_inj, BitVec.reduceToNat]
  omega

/-- A byte less than 16 above `d` keeps its distance from `d` in four bits. -/
theorem toNat_setWidth_sub {c : Byte} {d : Nat} (hlo : d ≤ c.toNat) (hhi : c.toNat < d + 16) :
    ((c - BitVec.ofNat 8 d).setWidth 4).toNat = c.toNat - d := by
  have hd : (BitVec.ofNat 8 d).toNat = d := by
    rw [BitVec.toNat_ofNat]
    omega
  rw [BitVec.toNat_setWidth, BitVec.toNat_sub_of_le (by rwa [BitVec.le_def, hd]), hd]
  omega

theorem toNat_nib_of_decimal {c : Byte} (hlo : 48 ≤ c.toNat) (hhi : c.toNat ≤ 57) : (nib c).toNat = c.toNat - 48 := by
  simp only [nib, BitVec.le_def, BitVec.reduceToNat, if_pos hhi]
  exact toNat_setWidth_sub (d := 48) hlo (by omega)

theorem toNat_nib_of_upper {c : Byte} (hlo : 65 ≤ c.toNat) (hhi : c.toNat ≤ 70) : (nib c).toNat = c.toNat - 55 := by
  have hnot : ¬c.toNat ≤ 57 := by omega
  simp only [nib, BitVec.le_def, BitVec.reduceToNat, if_neg hnot, if_pos hhi]
  exact toNat_setWidth_sub (d := 55) (by omega) (by omega)

theorem toNat_nib_of_lower {c : Byte} (hlo : 97 ≤ c.toNat) (hhi : c.toNat ≤ 102) : (nib c).toNat = c.toNat - 87 := by
  have hnotDecimal : ¬c.toNat ≤ 57 := by omega
  have hnotUpper : ¬c.toNat ≤ 70 := by omega
  simp only [nib, BitVec.le_def, BitVec.reduceToNat, if_neg hnotDecimal, if_neg hnotUpper]
  exact toNat_setWidth_sub (d := 87) (by omega) (by omega)

/-- Settles O20: one range after the other. -/
theorem hexDigitValues : Obligations.HexDigitValues :=
  fun _ => ⟨toNat_nib_of_decimal, toNat_nib_of_upper, toNat_nib_of_lower⟩

/-- On a hex digit the statements' reading of it is `nib`. -/
theorem hexDigitValue_of_isHex {c : Byte} (h : isHex c = true) : hexDigitValue c = some (nib c).toNat := by
  rcases (isHex_iff c).1 h with ⟨hlo, hhi⟩ | ⟨hlo, hhi⟩ | ⟨hlo, hhi⟩
  · rw [toNat_nib_of_decimal hlo hhi, hexDigitValue, if_pos ⟨hlo, hhi⟩]
  · rw [toNat_nib_of_upper hlo hhi, hexDigitValue, if_neg (by omega), if_neg (by omega), if_pos ⟨hlo, hhi⟩]
    exact congrArg some (by omega)
  · rw [toNat_nib_of_lower hlo hhi, hexDigitValue, if_neg (by omega), if_pos ⟨hlo, hhi⟩]
    exact congrArg some (by omega)

theorem hexDigitValue_of_not_isHex {c : Byte} (h : ¬isHex c = true) : hexDigitValue c = none := by
  rw [isHex_iff] at h
  rw [hexDigitValue, if_neg (by omega), if_neg (by omega), if_neg (by omega)]

theorem isSome_hexDigitValue_iff (c : Byte) : (hexDigitValue c).isSome = true ↔ isHex c = true := by
  by_cases h : isHex c = true
  · simp [hexDigitValue_of_isHex h, h]
  · simp [hexDigitValue_of_not_isHex h, h]

/-! ### KEYDEC (40_keycodec R112 to R114) -/

/-- The acceptance test is the statements' notion of a valid key string. -/
theorem keyStringOk_iff (b : Block) : keyStringOk b = true ↔ KeyStringValid b := by
  simp [keyStringOk, KeyStringValid, isSome_hexDigitValue_iff, ← BitVec.toNat_inj, Fin.forall_iff]

theorem exec_keydec_of_valid {s : State} (h : KeyStringValid s.block) :
    exec .keydec s = .next { s with block := { s.block with
      key := decodeHex s.block.keyhex
      keylen := 32
      status := doneStatus s.block.status 0 } } := by
  rw [exec_eq_finish, commandResult, runKeydec, if_pos ((keyStringOk_iff _).2 h)]
  rfl

theorem exec_keydec_of_not_valid {s : State} (h : ¬KeyStringValid s.block) :
    exec .keydec s = .next { s with block := { s.block with
      key := zeroBytes 32
      keylen := 0
      status := doneStatus s.block.status 1 } } := by
  rw [exec_eq_finish, commandResult, runKeydec, if_neg (mt (keyStringOk_iff _).1 h)]
  rfl

/-- Byte `j` of the decoded key is the nibble of character `2j` followed by that of character `2j + 1`. -/
theorem getElem_decodeHex (s : Vector Byte 64) (j : Nat) (hj : j < 32) :
    (decodeHex s)[j] = nib s[2 * j] ++ nib s[2 * j + 1] := by
  rw [decodeHex, Vector.getElem_ofFn, ← BitVec.setWidth_append_eq_shiftLeft_setWidth_or, BitVec.setWidth_eq]

/-- Settles O21: the valid key string is decoded, a byte from each two digits; any other leaves no key. -/
theorem keydecFollowsTheRule : Obligations.KeydecFollowsTheRule := by
  refine ⟨decode_encode .keydec, fun s =>
    ⟨fun hvalid => ⟨_, exec_keydec_of_valid hvalid, fun j => ?_⟩, exec_keydec_of_not_valid⟩⟩
  have hdigit (i : Fin 64) : hexDigitValue s.block.keyhex[i] = some (nib s.block.keyhex[i]).toNat :=
    hexDigitValue_of_isHex ((isSome_hexDigitValue_iff _).1 (hvalid.2 i))
  refine ⟨_, _, hdigit ⟨2 * j.val, by omega⟩, hdigit ⟨2 * j.val + 1, by omega⟩, ?_⟩
  rw [Fin.getElem_fin, getElem_decodeHex, toNat_append_eq_add, Nat.mul_comm]
  rfl

/-! ### Decoding an encoded key (40_keycodec R115) -/

theorem isHex_hexDigit (upper : Bool) (n : BitVec 4) : isHex (hexDigit upper n) = true := by
  revert upper n
  decide

@[simp] theorem nib_hexDigit (upper : Bool) (n : BitVec 4) : nib (hexDigit upper n) = n := by
  revert upper n
  decide

/-- The hex form of a key is a valid key string. -/
theorem keyStringValid_of_encodeHex {b : Block} {upper : Vector Bool 64} {key : Vector Byte 32} (hlen : b.hexlen = 64)
    (hhex : b.keyhex = encodeHex upper key) : KeyStringValid b := by
  refine ⟨congrArg BitVec.toNat hlen, fun i => (isSome_hexDigitValue_iff _).2 ?_⟩
  rw [hhex, Fin.getElem_fin, encodeHex, Vector.getElem_ofFn]
  exact isHex_hexDigit _ _

/-- Character `2j` of the hex form is the high nibble of byte `j`. -/
theorem nib_encodeHex_even (upper : Vector Bool 64) (key : Vector Byte 32) (j : Nat) (hj : j < 32) :
    nib (encodeHex upper key)[2 * j] = key[j].extractLsb' 4 4 := by
  simp [encodeHex]

/-- Character `2j + 1` of the hex form is the low nibble of byte `j`. -/
theorem nib_encodeHex_odd (upper : Vector Bool 64) (key : Vector Byte 32) (j : Nat) (hj : j < 32) :
    nib (encodeHex upper key)[2 * j + 1] = key[j].extractLsb' 0 4 := by
  simp [encodeHex, show (2 * j + 1) / 2 = j by omega]

theorem decodeHex_encodeHex (upper : Vector Bool 64) (key : Vector Byte 32) :
    decodeHex (encodeHex upper key) = key := by
  ext1 j hj
  rw [getElem_decodeHex, nib_encodeHex_even, nib_encodeHex_odd]
  exact BitVec.extractLsb'_append_extractLsb'

/-- Settles O22: the hex form is a valid key string, and decoding it gives the key. -/
theorem keydecDecodesEncodedKeys : Obligations.KeydecDecodesEncodedKeys := by
  intro s key upper hlen hhex
  rw [exec_keydec_of_valid (keyStringValid_of_encodeHex hlen hhex), hhex, decodeHex_encodeHex]

end Sys2Proof.Machine
end

