-- ==== Sys2Proof/Proofs/HmacFamily.lean ====
section
/-! The statements about SHA-1 and HMAC (41_hmac_sha1). General SHA-1 of one 64-byte block followed by a short message
is two compressions; both hashes of HMAC have that form, once the key is padded to a block, so the engine's four
compressions are general HMAC-SHA1. -/

namespace Sys2Proof.Machine

-- Elaborate each proof where it stands, not in a thread of its own, whose stack would count against the check's memory
-- limit; no other effect, as the section declares no `variable`.
set_option deprecated.oldSectionVars true

/-! ### The round functions and constants (41_hmac_sha1 R132) -/

section RoundFunctions

variable {t : Nat}

theorem roundK_of_lt_20 (h : t < 20) : roundK t = 0x5A827999 := if_pos h

theorem roundK_of_lt_40 (hlo : 20 ≤ t) (hhi : t < 40) : roundK t = 0x6ED9EBA1 := by
  rw [roundK, if_neg (by omega), if_pos hhi]

theorem roundK_of_lt_60 (hlo : 40 ≤ t) (hhi : t < 60) : roundK t = 0x8F1BBCDC := by
  rw [roundK, if_neg (by omega), if_neg (by omega), if_pos hhi]

theorem roundK_of_le_60 (h : 60 ≤ t) : roundK t = 0xCA62C1D6 := by
  rw [roundK, if_neg (by omega), if_neg (by omega), if_neg (by omega)]

variable (b c d : Word)

theorem roundF_of_lt_20 (h : t < 20) : roundF t b c d = (b &&& c) ||| (~~~b &&& d) := if_pos h

theorem roundF_of_parity (h : (20 ≤ t ∧ t < 40) ∨ 60 ≤ t) : roundF t b c d = b ^^^ c ^^^ d := by
  rw [roundF, if_neg (by omega)]
  rcases h with ⟨_, hhi⟩ | hhi
  · rw [if_pos hhi]
  · rw [if_neg (by omega), if_neg (by omega)]

theorem roundF_of_lt_60 (hlo : 40 ≤ t) (hhi : t < 60) :
    roundF t b c d = (b &&& c) ||| (b &&& d) ||| (c &&& d) := by
  rw [roundF, if_neg (by omega), if_neg (by omega), if_pos hhi]

theorem getLsbD_choice {i : Nat} (hi : i < 32) :
    ((b &&& c) ||| (~~~b &&& d)).getLsbD i = if b.getLsbD i then c.getLsbD i else d.getLsbD i := by
  rw [BitVec.getLsbD_or, BitVec.getLsbD_and, BitVec.getLsbD_and, BitVec.getLsbD_not]
  cases b.getLsbD i <;> simp [hi]

theorem getLsbD_parity (i : Nat) :
    (b ^^^ c ^^^ d).getLsbD i = xor (xor (b.getLsbD i) (c.getLsbD i)) (d.getLsbD i) := by
  rw [BitVec.getLsbD_xor, BitVec.getLsbD_xor]

theorem getLsbD_majority (i : Nat) :
    ((b &&& c) ||| (b &&& d) ||| (c &&& d)).getLsbD i =
      decide (2 ≤ (b.getLsbD i).toNat + (c.getLsbD i).toNat + (d.getLsbD i).toNat) := by
  simp only [BitVec.getLsbD_or, BitVec.getLsbD_and]
  generalize b.getLsbD i = x, c.getLsbD i = y, d.getLsbD i = z
  revert x y z
  decide

end RoundFunctions

/-- Settles O40: one range of `t` after the other. -/
theorem roundFunctionsBitByBit : Obligations.RoundFunctionsBitByBit := by
  intro t b c d _
  refine ⟨fun hhi => ⟨roundK_of_lt_20 hhi, fun i hi => ?choice⟩,
    fun hlo hhi => ⟨roundK_of_lt_40 hlo hhi, fun i _ => ?parity⟩,
    fun hlo hhi => ⟨roundK_of_lt_60 hlo hhi, fun i _ => ?majority⟩,
    fun hlo => ⟨roundK_of_le_60 hlo, fun i _ => ?lastParity⟩⟩
  case choice => rw [roundF_of_lt_20 b c d hhi, getLsbD_choice b c d hi]
  case parity => rw [roundF_of_parity b c d (.inl ⟨hlo, hhi⟩), getLsbD_parity]
  case majority => rw [roundF_of_lt_60 b c d hlo hhi, getLsbD_majority]
  case lastParity => rw [roundF_of_parity b c d (.inr hlo), getLsbD_parity]

/-! ### The message schedule (41_hmac_sha1 R133) -/

/-- A longer part of the schedule agrees with a shorter one where both have a word. -/
theorem getElem_schedulePart_succ (blk : Vector Byte 64) {n t : Nat} (h : t < 16 + n) :
    (schedulePart blk (n + 1))[t] = (schedulePart blk n)[t] :=
  Vector.getElem_push_lt h

theorem getElem_schedulePart_of_lt (blk : Vector Byte 64) (n : Nat) {t : Nat} (h : t < 16) :
    (schedulePart blk n)[t] = wordAt blk t (by omega) := by
  induction n with
  | zero => exact Vector.getElem_ofFn _
  | succ n ih => rw [getElem_schedulePart_succ blk (by omega), ih]

/-- The recurrence holds wherever the part has a word: at its last word by definition, before it by induction. -/
theorem getElem_schedulePart_of_le (blk : Vector Byte 64) (n : Nat) {t : Nat} (hlo : 16 ≤ t) (h : t < 16 + n) :
    (schedulePart blk n)[t] =
      rotl ((schedulePart blk n)[t - 3] ^^^ (schedulePart blk n)[t - 8] ^^^ (schedulePart blk n)[t - 14] ^^^
        (schedulePart blk n)[t - 16]) 1 := by
  induction n with
  | zero => omega
  | succ n ih =>
    rw [getElem_schedulePart_succ blk (t := t - 3) (by omega), getElem_schedulePart_succ blk (t := t - 8) (by omega),
      getElem_schedulePart_succ blk (t := t - 14) (by omega), getElem_schedulePart_succ blk (t := t - 16) (by omega)]
    by_cases hlt : t < 16 + n
    · rw [getElem_schedulePart_succ blk hlt, ih hlt]
    · obtain rfl : t = 16 + n := by omega
      exact Vector.getElem_push_eq

/-- Settles O41: the first sixteen words are the block's, every later one follows the recurrence. -/
theorem scheduleFollowsTheRecurrence : Obligations.ScheduleFollowsTheRecurrence := by
  intro blk t h
  refine ⟨fun h16 => ?_, fun h16 => getElem_schedulePart_of_le blk 64 h16 h⟩
  exact (congrArg BitVec.toNat (getElem_schedulePart_of_lt blk 64 h16)).trans (toNat_wordAt blk t _)

/-! ### The compression function (41_hmac_sha1 R134) -/

/-- The round variables of a compression after `n` rounds; after the last round they stay. -/
def roundVars (h : Words5) (blk : Vector Byte 64) (n : Nat) : Words5 :=
  if hn : n ≤ 80 then sha1Rounds (schedule blk) h n hn else compressVars h blk

theorem roundVars_zero (h : Words5) (blk : Vector Byte 64) : roundVars h blk 0 = h := rfl

theorem roundVars_succ (h : Words5) (blk : Vector Byte 64) {t : Nat} (ht : t < 80) :
    roundVars h blk (t + 1) = sha1Round t (schedule blk)[t] (roundVars h blk t) := by
  rw [roundVars, dif_pos (by omega), roundVars, dif_pos (by omega), sha1Rounds]

theorem roundVars_eighty (h : Words5) (blk : Vector Byte 64) : roundVars h blk 80 = compressVars h blk := rfl

/-- Settles O42: the sequence is that of the round variables. -/
theorem compressionIsEightyRounds : Obligations.CompressionIsEightyRounds := by
  intro h blk
  refine ⟨roundVars h blk, roundVars_zero h blk, fun t ht => roundVars_succ h blk ht, ?_⟩
  rw [roundVars_eighty, compress]

/-! ### The counter's bytes (41_hmac_sha1 R139) -/

theorem toNat_getElem_be64 (c : DWord) (i : Nat) (h : i < 8) :
    (be64 c)[i].toNat = c.toNat / 2 ^ (8 * (7 - i)) % 256 := by
  simp [be64, Nat.shiftRight_eq_div_pow]

/-- Settles O43: each byte is a digit of the counter to base 256, and four digits make a word. -/
theorem counterBytesAreBigEndian : Obligations.CounterBytesAreBigEndian := by
  intro c
  have hlt := c.isLt
  refine ⟨fun i => toNat_getElem_be64 c i i.isLt, ?high, ?low⟩
  all_goals
    simp only [bytesValue, toNat_getElem_be64, hiWord, loWord, BitVec.toNat_setWidth, BitVec.toNat_ushiftRight,
      Nat.shiftRight_eq_div_pow]
    omega

/-! ### The blocks of HMAC8 (41_hmac_sha1 R135 to R138) -/

theorem toList_paddedKey (key : Vector Byte 32) : (paddedKey key).toList = key.toList ++ List.replicate 32 0 := rfl

theorem getElem_paddedKey_of_lt (key : Vector Byte 32) {i : Nat} (h : i < 32) : (paddedKey key)[i] = key[i] :=
  List.getElem_append_left (bs := List.replicate 32 0) (as := key.toList) (by simpa using h)

theorem getElem_paddedKey_of_le (key : Vector Byte 32) {i : Nat} (hlo : 32 ≤ i) (h : i < 64) :
    (paddedKey key)[i] = 0 := by
  refine (List.getElem_append_right (as := key.toList) (by simpa using hlo)).trans ?_
  rw [List.getElem_replicate]

theorem getElem_padBlock (k0 : Vector Byte 64) (pad : Byte) {i : Nat} (h : i < 64) :
    (padBlock k0 pad)[i] = k0[i] ^^^ pad :=
  Vector.getElem_ofFn _

@[simp] theorem toList_padBlock (k0 : Vector Byte 64) (pad : Byte) :
    (padBlock k0 pad).toList = k0.toList.map (· ^^^ pad) := by
  refine List.ext_getElem (by simp) fun i _ _ => ?_
  simp [padBlock]

/-- A number below 2^16 fills only the last two of its eight bytes. -/
theorem getElem_be64_of_lt {v : DWord} (hv : v.toNat < 2 ^ 16) {i : Nat} (h : i < 6) : (be64 v)[i] = 0 := by
  have hpow : 2 ^ 16 ≤ 2 ^ (8 * (7 - i)) := Nat.pow_le_pow_right (by decide) (by omega)
  apply BitVec.eq_of_toNat_eq
  rw [toNat_getElem_be64, Nat.div_eq_of_lt (hv.trans_le hpow)]
  rfl

/-- The form of M2, M4 and every padded message: the bytes `l`, 0x80, `z` zero bytes, and a number in eight bytes. -/
def padded (l : List Byte) (z : Nat) (v : DWord) : List Byte :=
  l ++ [0x80] ++ List.replicate z 0 ++ (be64 v).toList

theorem toList_secondInner (m : Vector Byte 8) : (secondInner m).toList = padded m.toList 47 576 := rfl

theorem toList_secondOuter (inner : Vector Byte 20) : (secondOuter inner).toList = padded inner.toList 35 672 := rfl

theorem sha1Pad_eq_padded (m : List Byte) :
    sha1Pad m = padded m ((119 - m.length % 64) % 64) (BitVec.ofNat 64 (8 * m.length)) := rfl

theorem length_padded (l : List Byte) (z : Nat) (v : DWord) : (padded l z v).length = l.length + z + 9 := by
  simp [padded]
  omega

theorem padded_append (l m : List Byte) (z : Nat) (v : DWord) : padded (l ++ m) z v = l ++ padded m z v := by
  simp [padded]

/-! `b` is a block of that form, as the last block of a padded message is. -/

section LastBlock

variable {n z i : Nat} {m : Vector Byte n} {v : DWord} {b : Vector Byte 64} (hb : b.toList = padded m.toList z v)
include hb

theorem add_eq_55_of_lastBlock : n + z = 55 := by
  have hlen : n + z + 9 = 64 := by rw [← m.length_toList, ← length_padded, ← hb, b.length_toList]
  omega

theorem getElem_lastBlock (h : i < 64) : b[i] = (padded m.toList z v)[i]'(by simpa [← hb] using h) := by
  simp only [← hb, Vector.getElem_toList]

theorem getElem_lastBlock_of_lt (h : i < n) : b[i]'(by have := add_eq_55_of_lastBlock hb; omega) = m[i] := by
  rw [getElem_lastBlock hb]
  simp [padded, h]

theorem getElem_lastBlock_mark (h : n < 64) : b[n] = 0x80 := by
  rw [getElem_lastBlock hb]
  simp [padded]

theorem getElem_lastBlock_of_le (hlo : 56 ≤ i) (h : i < 64) : b[i] = (be64 v)[i - 56] := by
  have hlen : (m.toList ++ [0x80] ++ List.replicate z 0).length = 56 := by
    have := add_eq_55_of_lastBlock hb
    simp
    omega
  rw [getElem_lastBlock hb]
  refine (List.getElem_append_right (hlen ▸ hlo)).trans ?_
  simp only [hlen, Vector.getElem_toList]

/-- The zero bytes go on into the six leading bytes of a short message's length. -/
theorem getElem_lastBlock_zero (hv : v.toNat < 2 ^ 16) (hlo : n < i) (hhi : i < 62) : b[i] = 0 := by
  have hlen := add_eq_55_of_lastBlock hb
  by_cases hz : i < 56
  · rw [getElem_lastBlock hb]
    refine (List.getElem_append_left (by simp; omega)).trans ?_
    rw [List.getElem_append_right (by simpa using hlo), List.getElem_replicate]
  · rw [getElem_lastBlock_of_le hb (by omega) (by omega)]
    exact getElem_be64_of_lt hv (by omega)

end LastBlock

/-- Settles O44: each block part by part; the lengths are 0x0240 and 0x02A0. -/
theorem hmacBlocksByteByByte : Obligations.HmacBlocksByteByByte := by
  intro key m inner pad
  have hinner := toList_secondInner m
  have houter := toList_secondOuter inner
  refine ⟨fun i => getElem_paddedKey_of_lt key i.isLt, fun i hlo => getElem_paddedKey_of_le key hlo i.isLt,
    fun i => ?padLow, fun i hlo => ?padHigh,
    fun i => getElem_lastBlock_of_lt hinner i.isLt, getElem_lastBlock_mark hinner (by omega),
    fun i hlo hhi => getElem_lastBlock_zero hinner (by decide) hlo hhi,
    getElem_lastBlock_of_le hinner (by omega) (by omega), getElem_lastBlock_of_le hinner (by omega) (by omega),
    fun i => getElem_lastBlock_of_lt houter i.isLt, getElem_lastBlock_mark houter (by omega),
    fun i hlo hhi => getElem_lastBlock_zero houter (by decide) hlo hhi,
    getElem_lastBlock_of_le houter (by omega) (by omega), getElem_lastBlock_of_le houter (by omega) (by omega)⟩
  case padLow => rw [getElem_padBlock, getElem_paddedKey_of_lt key i.isLt]; rfl
  case padHigh =>
    rw [Fin.getElem_fin, getElem_padBlock, getElem_paddedKey_of_le key hlo, BitVec.ofNat_eq_ofNat, BitVec.zero_xor]

/-! ### HMAC8 as four compressions (41_hmac_sha1 R131, R140) -/

theorem bytesValue_wordByte (w : Word) :
    bytesValue (wordByte w 0) (wordByte w 1) (wordByte w 2) (wordByte w 3) = w.toNat := by
  rw [← toNat_be32, be32_wordByte]

theorem words5OfBytes_digestBytes (h : Words5) : Words5OfBytes (digestBytes h) h :=
  ⟨bytesValue_wordByte h.a, bytesValue_wordByte h.b, bytesValue_wordByte h.c, bytesValue_wordByte h.d,
    bytesValue_wordByte h.e⟩

/-- Settles O45: the four chaining values and INNER are those the engine goes through. -/
theorem hmacIsFourCompressions : Obligations.HmacIsFourCompressions :=
  ⟨rfl, fun key counter => ⟨_, _, outerChain key, finalChain key counter, innerDigest key counter, rfl, rfl,
    words5OfBytes_digestBytes _, rfl, rfl, words5OfBytes_digestBytes _⟩⟩

/-! ### HMAC8 is general HMAC-SHA1 (41_hmac_sha1 R143, R144) -/

theorem firstBlock_append (b : Vector Byte 64) (m : List Byte) : firstBlock (b.toList ++ m) = b := by
  ext1 i hi
  simp [firstBlock, List.getD_eq_getElem?_getD, List.getElem?_append]

/-- The fold takes the first block off. -/
theorem compressBlocks_append (n : Nat) (h : Words5) (b : Vector Byte 64) (m : List Byte) :
    compressBlocks (n + 1) h (b.toList ++ m) = compressBlocks n (compress h b) m := by
  rw [compressBlocks, firstBlock_append, List.drop_left' b.length_toList]

/-- SHA-1 of a message that its padding makes two blocks long. -/
theorem sha1_of_pad_eq {m : List Byte} {a b : Vector Byte 64} (h : sha1Pad m = a.toList ++ b.toList) :
    sha1 m = digestBytes (compress (compress sha1Iv a) b) := by
  have hcount : (a.toList ++ b.toList).length / Config.sha1BlockBytes = 1 + 1 := by simp [Config.sha1BlockBytes]
  rw [sha1, h, hcount, compressBlocks_append, ← List.append_nil b.toList, compressBlocks_append, compressBlocks]

/-- A block and the eight bytes of a counter are padded with M2's tail. -/
theorem sha1Pad_block_counter (b : Vector Byte 64) (m : Vector Byte 8) :
    sha1Pad (b.toList ++ m.toList) = b.toList ++ (secondInner m).toList := by
  rw [sha1Pad_eq_padded, padded_append, List.length_append, b.length_toList, m.length_toList, toList_secondInner]
  rfl

/-- A block and the 20 bytes of a digest are padded with M4's tail. -/
theorem sha1Pad_block_digest (b : Vector Byte 64) (inner : Vector Byte 20) :
    sha1Pad (b.toList ++ inner.toList) = b.toList ++ (secondOuter inner).toList := by
  rw [sha1Pad_eq_padded, padded_append, List.length_append, b.length_toList, inner.length_toList, toList_secondOuter]
  rfl

/-- General HMAC-SHA1 of eight bytes, once the padded key is that of a 32-byte key. -/
theorem hmacSha1_eq_hmac8 {k : List Byte} {key : Vector Byte 32}
    (hkey : generalKeyBlock k = (paddedKey key).toList) (counter : DWord) :
    hmacSha1 k (be64 counter).toList = hmac8 key counter := by
  have hinner : sha1 ((padBlock (paddedKey key) Config.ipad).toList ++ (be64 counter).toList) =
      innerDigest key counter :=
    sha1_of_pad_eq (sha1Pad_block_counter _ _)
  have houter : sha1 ((padBlock (paddedKey key) Config.opad).toList ++ (innerDigest key counter).toList) =
      hmac8 key counter :=
    sha1_of_pad_eq (sha1Pad_block_digest _ _)
  rw [hmacSha1, hkey, ← toList_padBlock, ← toList_padBlock, hinner, houter]

/-- A key of at most 32 bytes, extended to 32 with zero bytes. -/
theorem toList_ofFn_getD {k : List Byte} (h : k.length ≤ 32) :
    (Vector.ofFn fun i : Fin 32 => k.getD i.val 0).toList = k ++ List.replicate (32 - k.length) 0 := by
  refine List.ext_getElem (by simp; omega) fun i hi _ => ?_
  by_cases hk : i < k.length
  · simp [hk]
  · simp [List.getElem_append_right, hk, Nat.not_lt.1 hk]

theorem generalKeyBlock_of_le {k : List Byte} (h : k.length ≤ 64) :
    generalKeyBlock k = k ++ List.replicate (64 - k.length) 0 := by
  rw [generalKeyBlock, if_pos h]

/-- Extending a key to 32 bytes first does not change its padded block. -/
theorem generalKeyBlock_eq_paddedKey {k : List Byte} (h : k.length ≤ 32) :
    generalKeyBlock k = (paddedKey (Vector.ofFn fun i => k.getD i.val 0)).toList := by
  have hzeros : 64 - k.length = 32 - k.length + 32 := by omega
  rw [generalKeyBlock_of_le (by omega), toList_paddedKey, toList_ofFn_getD h, List.append_assoc,
    List.replicate_append_replicate, hzeros]

/-- Settles O47: the short key and the extended one have the same padded block. -/
theorem shortKeysPadOnTheRight : Obligations.ShortKeysPadOnTheRight :=
  fun _ counter h => (hmacSha1_eq_hmac8 (generalKeyBlock_eq_paddedKey h) counter).symm

/-- Settles O46: a 32-byte key's padded block is K0. -/
theorem engineIsHmacSha1 : Obligations.EngineIsHmacSha1 := by
  intro key counter
  have hkey : generalKeyBlock key.toList = (paddedKey key).toList := by
    rw [generalKeyBlock_of_le (by simp), key.length_toList, toList_paddedKey]
  exact (hmacSha1_eq_hmac8 hkey counter).symm

/-! ### The command HMAC (41_hmac_sha1 R141, R142) -/

theorem exec_hmac_of_keylen {s : State} (h : s.block.keylen = 32) :
    exec .hmac s = .next { s with block := { s.block with
      digest := hmac8 s.block.key s.block.counter
      work := hmacWork s.block.key s.block.counter
      status := doneStatus s.block.status 0 } } := by
  rw [exec_eq_finish, commandResult, runHmac, if_pos ((keyLengthOk_iff _).2 h)]
  rfl

theorem exec_hmac_of_keylen_ne {s : State} (h : s.block.keylen ≠ 32) :
    exec .hmac s = .next { s with block := { s.block with
      digest := zeroBytes 20
      status := doneStatus s.block.status 2 } } := by
  rw [exec_eq_finish, commandResult, runHmac, if_neg (mt (keyLengthOk_iff _).1 h)]
  rfl

/-- Settles O23: the two outcomes of the key-length check. -/
theorem hmacFollowsTheRule : Obligations.HmacFollowsTheRule :=
  ⟨decode_encode .hmac, fun _ => ⟨fun h => ⟨_, exec_hmac_of_keylen h⟩, exec_hmac_of_keylen_ne⟩⟩

end Sys2Proof.Machine
end

