-- ==== Sys2Proof/Proofs/TruncationFamily.lean ====
section
/-! The statements about dynamic truncation (42_truncation). OFFSET and BINARY are said once in numbers, by
`toNat_truncOffset` and `toNat_truncBinary`; CODE and DIGITS are so by `otpCode_toNat` and `otpDigits_getElem`. -/

namespace Sys2Proof.Machine

-- Elaborate each proof where it stands, not in a thread of its own, whose stack would count against the check's memory
-- limit; no other effect, as the section declares no `variable`.
set_option deprecated.oldSectionVars true

/-! ### Offset and binary in numbers (42_truncation R160, R161) -/

/-- OFFSET_MASK keeps the low four bits of a byte. -/
theorem toNat_and_offsetMask (b : Byte) : (b &&& Config.offsetMask).toNat = b.toNat % 16 :=
  (BitVec.toNat_and _ _).trans (Nat.and_two_pow_sub_one_eq_mod _ 4)

/-- SIGN_MASK drops the top bit of a byte. -/
theorem toNat_and_signMask (b : Byte) : (b &&& Config.signMask).toNat = b.toNat % 128 :=
  (BitVec.toNat_and _ _).trans (Nat.and_two_pow_sub_one_eq_mod _ 7)

theorem toNat_truncOffset (d : Vector Byte 20) : (truncOffset d).toNat = d[19].toNat % 16 := by
  rw [truncOffset, BitVec.toNat_setWidth, toNat_and_offsetMask]
  omega

/-- The window is read as a big-endian word, which the mask on its first byte keeps below 2^31. -/
theorem toNat_truncBinary {d : Vector Byte 20} {o : Nat} (ho : (truncOffset d).toNat = o) (h : o + 3 < 20) :
    (truncBinary d).toNat =
      d[o].toNat % 128 * 2 ^ 24 + d[o + 1].toNat * 2 ^ 16 + d[o + 2].toNat * 2 ^ 8 + d[o + 3].toNat := by
  subst ho
  have hword : truncBinary d = (be32 (d[(truncOffset d).toNat] &&& Config.signMask) d[(truncOffset d).toNat + 1]
      d[(truncOffset d).toNat + 2] d[(truncOffset d).toNat + 3]).setWidth 31 := rfl
  rw [hword, BitVec.toNat_setWidth, toNat_be32, bytesValue, toNat_and_signMask]
  omega

/-! ### The command TRUNC (42_truncation R164) -/

theorem exec_trunc (s : State) :
    exec .trunc s = .next { s with block := { truncate s.block with status := doneStatus s.block.status 0 } } := by
  rw [exec_eq_finish, commandResult, runTrunc_eq]
  rfl

/-- Settles O24: the written values are those of `truncate`, each in numbers. -/
theorem truncFollowsTheRule : Obligations.TruncFollowsTheRule :=
  ⟨decode_encode .trunc, fun s => ⟨_, _, _, _, exec_trunc s, toNat_truncOffset _, toNat_truncBinary rfl,
    otpCode_toNat _, fun i => otpDigits_getElem _ i i.isLt⟩⟩

/-! ### Bounds and digits (42_truncation R163, R165) -/

theorem areDigits_otpDigits (n : BitVec 20) : AreDigits (otpDigits n) := by
  intro i
  rw [Fin.getElem_fin, otpDigits_getElem n i i.isLt]
  omega

/-- Settles O36: the register widths bound OFFSET and BINARY, the modulus bounds CODE. -/
theorem truncationBounds : Obligations.TruncationBounds := by
  refine ⟨fun d => ⟨?offset, ?window, ?binary, ?code⟩, areDigits_otpDigits, fun n hn => ?largest⟩
  case offset => exact Nat.le_of_lt_succ (truncOffset d).isLt
  case window => exact Nat.add_le_add_right (Nat.le_of_lt_succ (truncOffset d).isLt) 3
  case binary => exact Nat.le_of_lt_succ (truncBinary d).isLt
  case code =>
    rw [otpCode_toNat]
    omega
  case largest => rw [otpCode_toNat, hn]

/-- Settles O37: below 10^6 a number is the sum of its six decimal digits at their places. -/
theorem digitsSpellTheCode : Obligations.DigitsSpellTheCode := by
  intro n hn
  simp only [otpDigits_getElem, Nat.add_sub_cancel_left]
  omega

/-! ### What truncation reads (42_truncation R166) -/

/-- Settles O38: the offsets agree, so both binaries are read at the same place, from bytes that agree there. -/
theorem truncationReadsOnlyItsWindow : Obligations.TruncationReadsOnlyItsWindow := by
  intro d e hlast hfirst hrest
  have hoffset : truncOffset d = truncOffset e := BitVec.eq_of_toNat_eq (by simp only [toNat_truncOffset, hlast])
  have hd := toNat_truncOffset d
  have hwindow : d[19].toNat % 16 + 3 < 20 := by omega
  refine ⟨hoffset, BitVec.eq_of_toNat_eq ?_⟩
  generalize d[19].toNat % 16 = o at hfirst hrest hd hwindow
  have hfirst' : d[o].toNat % 128 = e[o].toNat % 128 := hfirst ⟨o, by omega⟩ rfl
  have hrest' (k : Nat) (hlo : 0 < k) (hhi : k ≤ 3) : d[o + k] = e[o + k] :=
    hrest ⟨o + k, by omega⟩ (Nat.lt_add_of_pos_right hlo) (Nat.add_le_add_left hhi o)
  rw [toNat_truncBinary hd hwindow, toNat_truncBinary (hoffset ▸ hd) hwindow, hfirst', hrest' 1 (by decide) (by decide),
    hrest' 2 (by decide) (by decide), hrest' 3 (by decide) (by decide)]

end Sys2Proof.Machine
end

