-- ==== Sys2Proof/Proofs/HotpFamily.lean ====
section
/-! The statements about the composed commands (43_hotp_totp). HOTP is said once, by `exec_hotp_of_keylen` and
`exec_hotp_of_keylen_ne`; TOTP is HOTP after COUNTER is written, by `exec_totp`. -/

namespace Sys2Proof.Machine

-- Elaborate each proof where it stands, not in a thread of its own, whose stack would count against the check's memory
-- limit; no other effect, as the section declares no `variable`.
set_option deprecated.oldSectionVars true

/-! ### The command HOTP (43_hotp_totp R180) -/

theorem exec_hotp_of_keylen {s : State} (h : s.block.keylen = 32) :
    exec .hotp s = .next { s with block :=
      { truncate (computeDigest s.block) with status := doneStatus s.block.status 0 } } := by
  rw [exec_eq_finish, commandResult, runHotp, if_pos ((keyLengthOk_iff _).2 h)]
  rfl

theorem exec_hotp_of_keylen_ne {s : State} (h : s.block.keylen ≠ 32) :
    exec .hotp s = .next { s with block :=
      { clearCode (clearDigest s.block) with status := doneStatus s.block.status 2 } } := by
  rw [exec_eq_finish, commandResult, runHotp, if_neg (mt (keyLengthOk_iff _).1 h)]
  rfl

/-- Settles O25: the two outcomes of the key-length check. -/
theorem hotpFollowsTheRule : Obligations.HotpFollowsTheRule :=
  ⟨decode_encode .hotp, fun _ => ⟨fun h => ⟨_, exec_hotp_of_keylen h⟩, exec_hotp_of_keylen_ne⟩⟩

/-- Settles O26: TRUNC reads the digest that HMAC has just written. -/
theorem hotpIsHmacThenTrunc : Obligations.HotpIsHmacThenTrunc :=
  fun _ h => ⟨_, _, exec_hmac_of_keylen h, exec_trunc _, exec_hotp_of_keylen h⟩

/-! ### The time step (43_hotp_totp R181) -/

theorem toNat_totpCounter (now : DWord) : (totpCounter now).toNat = now.toNat / 30 :=
  BitVec.toNat_udiv

theorem totpCounter_eq_iff (now now' : DWord) :
    totpCounter now = totpCounter now' ↔ now.toNat / 30 = now'.toNat / 30 := by
  rw [← BitVec.toNat_inj, toNat_totpCounter, toNat_totpCounter]

/-- Settles O30: the bound is the quotient of the largest time. -/
theorem timeStepIsTheQuotient : Obligations.TimeStepIsTheQuotient := by
  refine fun now => ⟨toNat_totpCounter now, ?_⟩
  rw [toNat_totpCounter]
  exact Nat.div_le_div_right (Nat.le_of_lt_succ now.isLt)

/-! ### The command TOTP (43_hotp_totp R182) -/

/-- TOTP is HOTP on the block whose COUNTER is the time step. -/
theorem exec_totp (s : State) : exec .totp s = exec .hotp { s with block := setTotpCounter s.block } := by
  rw [exec_eq_finish, exec_eq_finish]
  rfl

/-- Settles O27: HOTP's rule, for the block that holds the derived counter. -/
theorem totpFollowsTheRule : Obligations.TotpFollowsTheRule :=
  ⟨decode_encode .totp, fun s => ⟨_, toNat_totpCounter s.block.now,
    fun h => ⟨_, (exec_totp s).trans (exec_hotp_of_keylen h)⟩,
    fun h => (exec_totp s).trans (exec_hotp_of_keylen_ne h)⟩⟩

/-- HOTP leaves NOW. -/
theorem runHotp_now (b : Block) : (runHotp b).1.now = b.now := by
  rcases runHotp_cases b with ⟨_, h⟩ | ⟨_, h⟩ <;> simp [h]

/-- Settles O28: both commands end in the block that HOTP's rule gives for the derived counter. -/
theorem totpIsCounterThenHotp : Obligations.TotpIsCounterThenHotp :=
  fun s => ⟨_, _, toNat_totpCounter s.block.now, runHotp_counter (setTotpCounter s.block),
    runHotp_now (setTotpCounter s.block), exec_eq_finish .totp s, exec_eq_finish .hotp _⟩

/-! ### Times in one window (43_hotp_totp R182, corner case (b)) -/

/-- HOTP does not read NOW and keeps it. -/
theorem runHotp_withNow (b : Block) (now : DWord) :
    runHotp { b with now := now } = ({ (runHotp b).1 with now := now }, (runHotp b).2) := by
  rcases runHotp_cases b with ⟨hlen, h⟩ | ⟨hlen, h⟩ <;> rw [h]
  · exact if_pos ((keyLengthOk_iff b).2 hlen)
  · exact if_neg (mt (keyLengthOk_iff b).1 hlen)

/-- TOTP reads NOW only for the time step, and keeps it. -/
theorem runTotp_withNow {b : Block} {now : DWord} (h : totpCounter now = totpCounter b.now) :
    runTotp { b with now := now } = ({ (runTotp b).1 with now := now }, (runTotp b).2) := by
  have hcounter : setTotpCounter { b with now := now } = { setTotpCounter b with now := now } := by
    rw [setTotpCounter, h, setTotpCounter]
  rw [runTotp, hcounter, runHotp_withNow, runTotp]

/-- Settles O29: the times of one window have the same time step. -/
theorem totpIsConstantInAWindow : Obligations.TotpIsConstantInAWindow := by
  intro s now hwindow
  refine ⟨_, exec_eq_finish .totp s, ?_⟩
  rw [exec_eq_finish, commandResult, runTotp_withNow ((totpCounter_eq_iff _ _).2 hwindow)]
  rfl

end Sys2Proof.Machine
end

