-- ==== Sys2Proof/Proofs/SystemFamily.lean ====
section
/-! The statements about the system command (44_system). What ZEROIZE leaves is said once, by `zeroized`: the reset
block but for STATUS and CW, so that what it reads and what the key commands answer follow from the zero registers. -/

namespace Sys2Proof.Machine

-- Elaborate each proof where it stands, not in a thread of its own, whose stack would count against the check's memory
-- limit; no other effect, as the section declares no `variable`.
set_option deprecated.oldSectionVars true

/-! ### The command ZEROIZE (44_system R200) -/

/-- The block as ZEROIZE leaves it: every data register at its reset value (44_system R200, corner case (a));
`exec_zeroize` ties it to `exec`. -/
def zeroized (b : Block) : Block := { Block.reset with status := doneStatus b.status 0, cw := b.cw }

@[simp] theorem zeroized_hexlen (b : Block) : (zeroized b).hexlen = 0 := rfl
@[simp] theorem zeroized_keylen (b : Block) : (zeroized b).keylen = 0 := rfl

theorem exec_zeroize (s : State) : exec .zeroize s = .next { s with block := zeroized s.block } := by
  rw [exec_eq_finish, commandResult, runZeroize_eq]
  rfl

/-- Settles O31: the reset value of every data register is zero. -/
theorem zeroizeFollowsTheRule : Obligations.ZeroizeFollowsTheRule :=
  ⟨decode_encode .zeroize, exec_zeroize⟩

/-- ZEROIZE issued twice is the same as once (44_system R200, corner case (c)). -/
theorem zeroized_zeroized (b : Block) : zeroized (zeroized b) = zeroized b := rfl

/-! ### What the host reads of the cleared registers -/

theorem hiWord_zero : hiWord 0 = 0 := by decide

theorem be32_zero : be32 0 0 0 0 = 0 := by decide

theorem wordAt_zeroBytes {n : Nat} (i : Nat) (h : 4 * i + 3 < n) : wordAt (zeroBytes n) i h = 0 := by
  simp only [wordAt, getElem_zeroBytes, be32_zero]

theorem regValue_zeroized (b : Block) {reg : Reg} (h : reg ≠ .status) : regValue (zeroized b) reg = 0 := by
  cases reg with
  | status => exact absurd rfl h
  | counterHi | nowHi => exact hiWord_zero
  | keyhex i | key i | digest i => exact wordAt_zeroBytes i.val _
  | digits0 => exact wordAt_zeroBytes 0 _
  | digits1 => exact be32_zero
  | _ => rfl

theorem hostRead_zeroized (b : Block) {k : Slot} (h : k ≠ 1) : hostRead (zeroized b) k = 0 :=
  (hostRead_idle (zeroized b) k rfl).trans (regValue_zeroized b (regOfSlot_ne_status h))

/-! ### What the key commands answer without a key (44_system R200, corner case (b)) -/

/-- HEXLEN is 0, so no key string stands in KEYHEX. -/
theorem not_keyStringValid_zeroized (b : Block) : ¬KeyStringValid (zeroized b) := by
  simp [KeyStringValid]

theorem keylen_zeroized_ne (b : Block) : (zeroized b).keylen ≠ 32 := by
  simp

/-- Settles O32: the cleared block reads 0, is cleared already, and holds neither a key string nor a key. -/
theorem zeroizeLeavesNoKey : Obligations.ZeroizeLeavesNoKey := by
  intro s
  have hkeylen := keylen_zeroized_ne s.block
  refine ⟨_, exec_zeroize s, fun k hk => hostRead_zeroized s.block hk, ?again, ?keydec, ?hmac, ?hotp, ?totp⟩
  case again => rw [exec_zeroize, zeroized_zeroized]
  case keydec => exact ⟨_, exec_keydec_of_not_valid (not_keyStringValid_zeroized s.block), rfl⟩
  case hmac => exact ⟨_, exec_hmac_of_keylen_ne hkeylen, rfl⟩
  case hotp => exact ⟨_, exec_hotp_of_keylen_ne hkeylen, rfl⟩
  case totp => exact ⟨_, (exec_totp _).trans (exec_hotp_of_keylen_ne hkeylen), rfl⟩

end Sys2Proof.Machine
end

