-- ==== Sys2Proof/Proofs/ExceptionsFamily.lean ====
section
/-! The statements about the errors (60_exceptions): which command raises which error, what an illegal word leaves, and
that no error stops the machine. -/

namespace Sys2Proof.Machine

-- Elaborate each proof where it stands, not in a thread of its own, whose stack would count against the check's memory
-- limit; no other effect, as the section declares no `variable`.
set_option deprecated.oldSectionVars true

/-! ### The errors of the commands (60_exceptions R211 to R213) -/

theorem exec_keydec_err (s : State) :
    ∃ t, exec .keydec s = .next t ∧ t.block.status.err = if KeyStringValid s.block then 0 else 1 := by
  by_cases h : KeyStringValid s.block
  · exact ⟨_, exec_keydec_of_valid h, (if_pos h).symm⟩
  · exact ⟨_, exec_keydec_of_not_valid h, (if_neg h).symm⟩

theorem exec_hmac_err (s : State) :
    ∃ t, exec .hmac s = .next t ∧ t.block.status.err = if s.block.keylen = 32 then 0 else 2 := by
  by_cases h : s.block.keylen = 32
  · exact ⟨_, exec_hmac_of_keylen h, (if_pos h).symm⟩
  · exact ⟨_, exec_hmac_of_keylen_ne h, (if_neg h).symm⟩

theorem exec_hotp_err (s : State) :
    ∃ t, exec .hotp s = .next t ∧ t.block.status.err = if s.block.keylen = 32 then 0 else 2 := by
  by_cases h : s.block.keylen = 32
  · exact ⟨_, exec_hotp_of_keylen h, (if_pos h).symm⟩
  · exact ⟨_, exec_hotp_of_keylen_ne h, (if_neg h).symm⟩

/-- TOTP checks KEYLEN as HOTP does: the COUNTER it writes first does not change the check. -/
theorem exec_totp_err (s : State) :
    ∃ t, exec .totp s = .next t ∧ t.block.status.err = if s.block.keylen = 32 then 0 else 2 := by
  rw [exec_totp]
  exact exec_hotp_err { s with block := setTotpCounter s.block }

/-- Settles O35: by the command; TRUNC and ZEROIZE cannot fail. -/
theorem errorsAreRaisedExactlyWhenListed : Obligations.ErrorsAreRaisedExactlyWhenListed := by
  intro i s
  cases i with
  | keydec => exact exec_keydec_err s
  | hmac => exact exec_hmac_err s
  | hotp => exact exec_hotp_err s
  | totp => exact exec_totp_err s
  | trunc => exact ⟨_, exec_trunc s, rfl⟩
  | zeroize => exact ⟨_, exec_zeroize s, rfl⟩

/-! ### Illegal words (60_exceptions R214) -/

theorem exists_decode_error_of_not_wordWellFormed {w : Word} (h : wordWellFormed w = false) :
    ∃ e, decode w = .error e := by
  cases hd : decode w with
  | ok i => exact absurd ((legalWordsAreTheWellFormedOnes w).1 ⟨i, hd⟩) (ne_true_of_eq_false h)
  | error e => exact ⟨e, rfl⟩

theorem engineMove_of_decode_error {s : State} {e : Illegal} (busy : s.block.status.busy = true)
    (h : decode s.block.cw = .error e) :
    engineMove s = .next { s with block := { s.block with status := doneStatus s.block.status 3 } } := by
  rw [engineMove_of_busy busy, heldResult_of_decode_error h]
  rfl

/-- Settles O14: the held word decodes to an error, so it completes with IllegalCommand. -/
theorem illegalWordCompletesWithCodeThree : Obligations.IllegalWordCompletesWithCodeThree := by
  intro s hmoves busy hillegal
  obtain ⟨e, hdecode⟩ := exists_decode_error_of_not_wordWellFormed hillegal
  exact (step_of_engineMoves hmoves).trans (engineMove_of_decode_error (s := takeTurn s) busy hdecode)

/-! ### No error stops the machine (60_exceptions R210, R230) -/

/-- Settles O56: every step is one of the transitions, and each of them leaves a next state. -/
theorem machineNeverStops : Obligations.MachineNeverStops := by
  intro s
  obtain ⟨t, hstep, -⟩ := step_transition s
  exact ⟨t, hstep⟩

end Sys2Proof.Machine
end

