-- ==== Sys2Proof/Proofs/ResetAndHazardsFamily.lean ====
section
/-! The statements about reset and hazards (70_reset_and_hazards): what a `Reset` leaves, that a host that polls never
meets a busy block, and that every accepted command completes. -/

namespace Sys2Proof.Machine

-- Elaborate each proof where it stands, not in a thread of its own, whose stack would count against the check's memory
-- limit; no other effect, as the section declares no `variable`.
set_option deprecated.oldSectionVars true

/-! ### Reset (70_reset R240, R242) -/

/-- Settles O16: the environment's move is `Reset`, which asks nothing of the state. -/
theorem resetFromAnyState : Obligations.ResetFromAnyState := by
  intro s hturn
  simp only [step, (nextAgent_eq_environment_iff s).2 hturn]
  rfl

/-! ### The polling protocol (70_reset R244, R245)

A poll falls due when a command is accepted, and none shows BUSY = 0 while the command is held. So a busy block always
meets a host that owes a poll, and such a host writes nothing and reads STATUS alone. -/

theorem pollOwedAfter_of_command {s : State} (owed : Bool) (agent : nextAgent s = .host) {v : Word} {rest : Script}
    (line : s.host.script = .wr 0 v rest) : pollOwedAfter owed s = true := by
  simp [pollOwedAfter, agent, line, slotOfReg]

/-- Polls do not settle what is owed while the command is held; only a `Reset` removes it. -/
theorem pollOwedAfter_of_busy {s : State} (busy : s.block.status.busy = true) (agent : nextAgent s ≠ .environment) :
    pollOwedAfter true s = true := by
  have hpoll : pollSaysIdle (hostRead s.block (slotOfReg .status)) = false := by simp [pollSaysIdle_status, busy]
  cases hagent : nextAgent s with
  | environment => exact absurd hagent agent
  | engine => simp [pollOwedAfter, hagent]
  | host =>
    cases line : s.host.script with
    | done | wr | ifThen => simp [pollOwedAfter, hagent, line]
    | wait => simp [pollOwedAfter, hagent, line, hpoll]
    | rd k rest =>
      by_cases hk : k = slotOfReg .status
      · simp [pollOwedAfter, hagent, line, hk, hpoll]
      · simp [pollOwedAfter, hagent, line, hk]

/-- BUSY after a step was either raised by a write to CMD or held on to, and a poll is owed in both cases. -/
theorem PollInv.of_transition {owed : Bool} {s t : State} (inv : PollInv owed s) (tr : Transition s t.block) :
    PollInv (pollOwedAfter owed s) t := by
  intro busy'
  cases busy : s.block.status.busy with
  | false =>
    obtain ⟨agent, v, rest, line, -⟩ := tr.accept_of_busy_rises busy busy'
    exact pollOwedAfter_of_command owed agent line
  | true =>
    have agent : nextAgent s ≠ .environment := fun hreset => by
      rw [tr.eq_reset hreset] at busy'
      exact absurd busy' (by decide)
    rw [inv busy]
    exact pollOwedAfter_of_busy busy agent

/-- While a command is held, the next line of a host that keeps the protocol writes nothing and reads STATUS alone. -/
theorem PollInv.line_of_busy {owed : Bool} {s : State} (inv : PollInv owed s) (keeps : HostKeepsPolling owed s)
    (hmoves : HostMoves s) (busy : s.block.status.busy = true) :
    (∀ k v rest, s.host.script ≠ .wr k v rest) ∧ ∀ k rest, s.host.script = .rd k rest → k = slotOfReg .status :=
  (allowedWhileOwed_iff _).1 (keeps hmoves (inv busy))

/-- A write to a busy block alone sets HZD, and the host makes none. -/
theorem PollInv.hzd_of_transition {owed : Bool} {s t : State} (inv : PollInv owed s) (keeps : HostKeepsPolling owed s)
    (tr : Transition s t.block) (hset : t.block.status.hzd = true) : s.block.status.hzd = true := by
  by_contra hclear
  obtain ⟨agent, busy, k, v, rest, line⟩ := tr.busy_write_of_hzd_rises (Bool.eq_false_of_not_eq_true hclear) hset
  exact (inv.line_of_busy keeps ((nextAgent_eq_host_iff s).1 agent) busy).1 k v rest line

/-- STATUS reads as it is even while busy, and the host reads any other slot of an idle block only. -/
theorem PollInv.hostRead_eq_slotValue {owed : Bool} {s : State} (inv : PollInv owed s) (keeps : HostKeepsPolling owed s)
    (hmoves : HostMoves s) {k : Slot} {rest : Script} (line : s.host.script = .rd k rest) :
    hostRead s.block k = slotValue s.block k := by
  cases busy : s.block.status.busy with
  | false => exact hostRead_idle s.block k busy
  | true =>
    obtain rfl := (inv.line_of_busy keeps hmoves busy).2 k rest line
    rfl

/-- Settles O54: the parts above, for the transition the step is. -/
theorem protocolIsSafe : Obligations.ProtocolIsSafe := by
  refine ⟨fun owed s t inv keeps hstep => ?_, fun owed s k rest inv keeps hmoves line => ?_⟩
  · obtain ⟨t', hstep', tr⟩ := step_transition s
    obtain rfl : t = t' := by simpa [hstep] using hstep'
    exact ⟨inv.of_transition tr, inv.hzd_of_transition keeps tr⟩
  · rw [step_of_hostMoves hmoves, hostMove_rd (s := takeTurn s) line, ← inv.hostRead_eq_slotValue keeps hmoves line]
    rfl

/-! ### Liveness (70_reset R251) -/

theorem step_of_engineMoves_busy {s : State} (hmoves : EngineMoves s) (busy : s.block.status.busy = true) :
    step s = .next { takeTurn s with block := completeBlock (heldResult s.block) } :=
  (step_of_engineMoves hmoves).trans (engineMove_of_busy (s := takeTurn s) busy)

theorem busy_hostMove {s : State} (busy : s.block.status.busy = true) : (hostMove s).block.status.busy = true := by
  rcases hostMove_block s with hblock | ⟨k, v, rest, _, hblock⟩ <;> rw [hblock]
  · exact busy
  · simp [hostWrite_of_busy busy, busy]

/-- Settles O57: a host's turn leaves the command held and one turn fewer; the first engine's turn, at the latest the
one when no turn is left, completes it. -/
theorem everyAcceptedCommandCompletes : Obligations.EveryAcceptedCommandCompletes := by
  intro s busy hturns
  induction hs : s.turns generalizing s with
  | nil => exact ⟨1, _, by simp, run_succ (step_of_engineMoves_busy (.inr ⟨hs, busy⟩) busy), rfl, rfl⟩
  | cons a turns ih =>
    cases a with
    | environment => exact absurd (hs ▸ List.mem_cons_self) hturns
    | engine => exact ⟨1, _, by simp, run_succ (step_of_engineMoves_busy (.inl (by simp [hs])) busy), rfl, rfl⟩
    | host =>
      have hrest : (hostMove (takeTurn s)).turns = turns := by simp [hostMove_turns, hs]
      have hnoReset : NoReset (hostMove (takeTurn s)).turns := fun hmem =>
        hturns (hs ▸ List.mem_cons_of_mem _ (hrest ▸ hmem))
      obtain ⟨n, t, hn, hrun, hdone⟩ := ih _ (busy_hostMove (s := takeTurn s) busy) hnoReset hrest
      have hstep : step s = .next (hostMove (takeTurn s)) := step_of_hostMoves (.inl (by simp [hs]))
      exact ⟨n + 1, t, by simpa using hn, (run_succ hstep).trans hrun, hdone⟩

end Sys2Proof.Machine
end
